-- ==== Sys2Proof/Word.lean ====
section
/-! DEFINITION. The word types of the core: a byte, a program counter, a register number. -/

namespace Sys2Proof

/-- A register, a memory cell, the flags register, an opcode, an operand byte: 8 bits, unsigned
(00_scope.md rules R4 and R6). -/
abbrev Byte := BitVec 8

/-- The program counter: 9 bits (00_scope.md rule R4 `PC_BITS`; 10_state.md rule R15, decision D3). -/
abbrev PcWord := BitVec 9

/-- A register number, 0 to 7 (10_state.md rule R11). -/
abbrev Reg := Fin 8

end Sys2Proof
end

