-- ==== Sys2Proof/Config.lean ====
section
/-! DEFINITION. The parameters of 00_scope.md rule R4 that are plain numbers. The opcode map stands in
Decode.lean. There is no free value: 93_implementation_defined.md gives every open case of this machine a
stop or a value. -/

namespace Sys2Proof.Config

/-- `MEM_SIZE`: cells 0 to 255 (00_scope.md rule R4). -/
def memSize : Nat := 256

/-- `SP_INDEX`: the stack pointer is register 7 (00_scope.md rule R4; 10_state.md rule R12). -/
def spIndex : Reg := 7

/-- `SP_RESET` (00_scope.md rule R4). -/
def spReset : Byte := 0xF4

/-- `PC_RESET` (00_scope.md rule R4). -/
def pcReset : PcWord := 0

/-- `FL_RESET` (00_scope.md rule R4; the spec's decision D5; UNVERIFIED, log entry 9). -/
def flReset : Byte := 0

end Sys2Proof.Config
end

