-- ==== Sys2Proof/Syntax.lean ====
section
/-! DEFINITION. The instructions: one constructor of `Instr` per row of spec/opcode_table.json, its operand
bytes as they stand in memory; the mnemonics, the four formats of 30_encoding.md rule R43, and the assembler
spelling of rule R54. -/

namespace Sys2Proof

/-- One instruction with its operand bytes. `a` and `b` are register operand bytes, any value 0 to 255
(30_encoding.md rule R46 decides what 8 to 255 does), `imm` is LDI's immediate (rule R47). -/
inductive Instr where
  | hlt
  | push (a : Byte)
  | pop (a : Byte)
  | prn (a : Byte)
  | call (a : Byte)
  | jump (a : Byte)
  | jeq (a : Byte)
  | jne (a : Byte)
  | ldi (a imm : Byte)
  | add (a b : Byte)
  | mul (a b : Byte)
  | mod (a b : Byte)
  | cmp (a b : Byte)
  | and (a b : Byte)
  | not (a b : Byte)
  | or (a b : Byte)
  | xor (a b : Byte)
  | shl (a b : Byte)
  | shr (a b : Byte)
  deriving DecidableEq, Repr

/-- The 19 mnemonics of the opcode table (30_encoding.md rule R49 a). -/
inductive Mnemonic where
  | hlt | push | pop | prn | call | jump | jeq | jne | ldi
  | add | mul | mod | cmp | and | not | or | xor | shl | shr
  deriving DecidableEq, Repr

/-- Every mnemonic, in the order of 30_encoding.md rule R50. -/
def Mnemonic.all : List Mnemonic :=
  [.hlt, .push, .pop, .prn, .call, .jump, .jeq, .jne, .ldi,
   .add, .mul, .mod, .cmp, .and, .not, .or, .xor, .shl, .shr]

/-- The formats of 30_encoding.md rule R43. -/
inductive Format where
  | f0    -- the opcode alone
  | f1    -- one register operand
  | f2r   -- two register operands
  | f2i   -- a register operand and an immediate
  deriving DecidableEq, Repr

/-- The format of each instruction (30_encoding.md rule R43). -/
def Mnemonic.format : Mnemonic → Format
  | .hlt => .f0
  | .push | .pop | .prn | .call | .jump | .jeq | .jne => .f1
  | .ldi => .f2i
  | .add | .mul | .mod | .cmp | .and | .not | .or | .xor | .shl | .shr => .f2r

/-- The number of operand bytes of a format (30_encoding.md rule R43). -/
def Format.operandCount : Format → Nat
  | .f0 => 0
  | .f1 => 1
  | .f2r | .f2i => 2

/-- The mnemonic of an instruction. -/
def Instr.mnemonic : Instr → Mnemonic
  | .hlt => .hlt
  | .push _ => .push
  | .pop _ => .pop
  | .prn _ => .prn
  | .call _ => .call
  | .jump _ => .jump
  | .jeq _ => .jeq
  | .jne _ => .jne
  | .ldi _ _ => .ldi
  | .add _ _ => .add
  | .mul _ _ => .mul
  | .mod _ _ => .mod
  | .cmp _ _ => .cmp
  | .and _ _ => .and
  | .not _ _ => .not
  | .or _ _ => .or
  | .xor _ _ => .xor
  | .shl _ _ => .shl
  | .shr _ _ => .shr

/-- The operand bytes in memory order: at `pc+1`, then at `pc+2` (20_memory.md rule R31). -/
def Instr.operands : Instr → List Byte
  | .hlt => []
  | .push a | .pop a | .prn a | .call a | .jump a | .jeq a | .jne a => [a]
  | .ldi a imm => [a, imm]
  | .add a b | .mul a b | .mod a b | .cmp a b | .and a b | .not a b | .or a b | .xor a b
  | .shl a b | .shr a b => [a, b]

/-- The operand bytes that are register indices, in the order they are checked
(40_execution_loop.md rule R62): LDI's immediate is none. -/
def Instr.regOperands : Instr → List Byte
  | .hlt => []
  | .push a | .pop a | .prn a | .call a | .jump a | .jeq a | .jne a | .ldi a _ => [a]
  | .add a b | .mul a b | .mod a b | .cmp a b | .and a b | .not a b | .or a b | .xor a b
  | .shl a b | .shr a b => [a, b]

/-- The length in bytes, `1 + N` (30_encoding.md rule R48). -/
def Instr.length (i : Instr) : Nat := 1 + i.mnemonic.format.operandCount

/-- The mnemonic as the opcode table spells it. -/
def Mnemonic.name : Mnemonic → String
  | .hlt => "HLT"
  | .push => "PUSH"
  | .pop => "POP"
  | .prn => "PRN"
  | .call => "CALL"
  | .jump => "JUMP"
  | .jeq => "JEQ"
  | .jne => "JNE"
  | .ldi => "LDI"
  | .add => "ADD"
  | .mul => "MUL"
  | .mod => "MOD"
  | .cmp => "CMP"
  | .and => "AND"
  | .not => "NOT"
  | .or => "OR"
  | .xor => "XOR"
  | .shl => "SHL"
  | .shr => "SHR"

/-- The assembler text of 30_encoding.md rule R54: `MNEMONIC`, `MNEMONIC Ra`, `MNEMONIC Ra,Rb`,
`LDI Ra,imm`, numbers in decimal. -/
def Instr.asm (i : Instr) : String :=
  match i.mnemonic.format, i.operands with
  | .f1, [a] => i.mnemonic.name ++ " R" ++ toString a.toNat
  | .f2r, [a, b] => i.mnemonic.name ++ " R" ++ toString a.toNat ++ ",R" ++ toString b.toNat
  | .f2i, [a, imm] => i.mnemonic.name ++ " R" ++ toString a.toNat ++ "," ++ toString imm.toNat
  | _, _ => i.mnemonic.name

end Sys2Proof
end

