-- ==== Sys2Proof/WellFormed.lean ====
section
/-! DEFINITION. Well-formed instructions: every register operand names a register (30_encoding.md rule R46).
An ill-formed one decodes all the same and raises `RegisterIndex` when it runs. -/

namespace Sys2Proof

/-- The byte names a register: it is 0 to 7 (30_encoding.md rule R46). -/
def namesRegister (b : Byte) : Bool := b.toNat ≤ 7

/-- Every register operand names a register. LDI's immediate may be any byte (30_encoding.md rule R47). -/
def Instr.wf (i : Instr) : Bool := i.regOperands.all namesRegister

end Sys2Proof
end

