-- ==== Sys2Proof/Decode.lean ====
section
/-! DEFINITION. Decoding and encoding (30_encoding.md; 40_execution_loop.md rules R59 and R61): the opcode map,
the operand count of an opcode byte, the lookup, the decoder of a list of bytes, and the encoder. Decoder and
encoder take the opcode map as an argument (decision D1); the machine runs the default map. -/

namespace Sys2Proof

/-- `OPCODE_MAP`: the byte value of each of the 19 opcodes (00_scope.md rule R4, a parameter). -/
abbrev OpcodeMap := Mnemonic → Byte

/-- The default `OPCODE_MAP` of 30_encoding.md rule R50 (the spec's decisions D1 and D2), the map that `step` runs.
UNVERIFIED: the spec marks the byte values as general knowledge, not in its source (log entry 1). -/
def opcodeMap : OpcodeMap
  | .hlt => 0b00000001
  | .push => 0b01000101
  | .pop => 0b01000110
  | .prn => 0b01000111
  | .call => 0b01010000
  | .jump => 0b01010100
  | .jeq => 0b01010101
  | .jne => 0b01010110
  | .ldi => 0b10000010
  | .add => 0b10100000
  | .mul => 0b10100010
  | .mod => 0b10100100
  | .cmp => 0b10100111
  | .and => 0b10101000
  | .not => 0b10101001
  | .or => 0b10101010
  | .xor => 0b10101011
  | .shl => 0b10101100
  | .shr => 0b10101101

/-- `N`, opcode bits 7:6 (30_encoding.md rule R44; 40_execution_loop.md rule R59). -/
def operandCount (op : Byte) : Nat := ((op &&& 0b11000000) >>> 6).toNat

/-- What 30_encoding.md rule R49 asks of any opcode map: distinct values, bits 7:6 equal to the operand
count, and no instruction at the byte 0. -/
abbrev OpcodeMap.Valid (om : OpcodeMap) : Prop :=
  (∀ m ∈ Mnemonic.all, ∀ m' ∈ Mnemonic.all, om m = om m' → m = m') ∧
  (∀ m ∈ Mnemonic.all, operandCount (om m) = m.format.operandCount) ∧
  (∀ m ∈ Mnemonic.all, om m ≠ 0)

/-- The table lookup on the whole opcode byte (40_execution_loop.md rule R61). -/
def lookup (om : OpcodeMap) (op : Byte) : Option Mnemonic :=
  Mnemonic.all.find? (fun m => om m == op)

/-- The instruction of a mnemonic with the operand bytes `a` (at `pc+1`) and `b` (at `pc+2`); an operand the
format does not have is ignored (30_encoding.md rule R43). -/
def makeInstr (m : Mnemonic) (a b : Byte) : Instr :=
  match m with
  | .hlt => .hlt
  | .push => .push a
  | .pop => .pop a
  | .prn => .prn a
  | .call => .call a
  | .jump => .jump a
  | .jeq => .jeq a
  | .jne => .jne a
  | .ldi => .ldi a b
  | .add => .add a b
  | .mul => .mul a b
  | .mod => .mod a b
  | .cmp => .cmp a b
  | .and => .and a b
  | .not => .not a b
  | .or => .or a b
  | .xor => .xor a b
  | .shl => .shl a b
  | .shr => .shr a b

/-- Why a list of bytes is no instruction. -/
inductive DecodeError where
  | empty                               -- no byte at all
  | unrecognizedOpcode (op : Byte)      -- the first byte is in no row of the map (30_encoding.md rule R51)
  | truncated (op : Byte)               -- fewer operand bytes than the opcode has
  deriving DecidableEq, Repr

/-- The instruction at the head of a list of bytes under a given opcode map (30_encoding.md rules R43, R48
and R53); bytes after the instruction are ignored. -/
def decodeWith (om : OpcodeMap) : List Byte → Except DecodeError Instr
  | [] => .error .empty
  | op :: rest =>
    match lookup om op with
    | none => .error (.unrecognizedOpcode op)
    | some m =>
      if rest.length < m.format.operandCount then .error (.truncated op)
      else .ok (makeInstr m (rest.getD 0 0) (rest.getD 1 0))

/-- The decoder of the machine: the default opcode map. -/
def decode (bytes : List Byte) : Except DecodeError Instr := decodeWith opcodeMap bytes

/-- The bytes of an instruction: its opcode, then its operand bytes (30_encoding.md rule R43). -/
def encodeWith (om : OpcodeMap) (i : Instr) : List Byte := om i.mnemonic :: i.operands

/-- The encoder of the machine: the default opcode map. -/
def encode (i : Instr) : List Byte := encodeWith opcodeMap i

/-- The first three bytes, lowest address first, of an instruction numbered as spec/opcode_table.json numbers
bits: byte `k` is bits `8k+7` to `8k`; bits from `nbits` on are 0. -/
def tableBytes (nbits w : Nat) : List Byte :=
  let v := w % 2 ^ nbits
  [BitVec.ofNat 8 v, BitVec.ofNat 8 (v / 256), BitVec.ofNat 8 (v / 65536)]

/-- The instruction the decoder reads from a table word (30_encoding.md rule R50). -/
def decodeTableWord (nbits w : Nat) : Option Instr := (decode (tableBytes nbits w)).toOption

end Sys2Proof
end

