-- ==== Sys2Proof/Machine/State.lean ====
section
/-! DEFINITION. The state of the machine (10_state.md), the fault and the refusal of a step, and reset. -/

namespace Sys2Proof.Machine

/-- The run state `RS` (10_state.md rule R21). -/
inductive RunState where
  | running
  | halted
  | faulted
  deriving DecidableEq, Repr

/-- The condition code `CAUSE` (10_state.md rule R22; 60_exceptions.md rule R96; `Cause.code` gives the
numbers). -/
inductive Cause where
  | none
  | hlt
  | unrecognizedOpcode
  | modByZero
  | addressRange
  | registerIndex
  | returnAddressRange
  deriving DecidableEq, Repr

/-- The register file `x[0]` to `x[7]` (10_state.md rule R11). -/
structure Regs where
  x0 : Byte
  x1 : Byte
  x2 : Byte
  x3 : Byte
  x4 : Byte
  x5 : Byte
  x6 : Byte
  x7 : Byte    -- the stack pointer (rule R12)
  deriving DecidableEq, Repr

/-- The memory as (address, byte) pairs. An unlisted address holds 0, its reset content
(10_state.md rule R26; DESIGN CHOICE, log entry 6). -/
abbrev Memory := List Host.Cell

/-- The canonical form: addresses strictly rising, all inside 0 to 255, and no entry equal to what an unlisted
address reads as. -/
abbrev Memory.wf (m : Memory) : Prop :=
  m.Pairwise (fun c d => c.1 < d.1) ∧ ∀ c ∈ m, c.1 < Config.memSize ∧ c.2 ≠ 0

/-- The whole state of the machine (10_state.md; the fetch latches of rule R25 are not state). -/
structure State where
  regs  : Regs
  pc    : PcWord         -- rule R15
  fl    : Byte           -- rule R18
  mem   : Memory         -- 20_memory.md rule R27
  rs    : RunState       -- rule R21
  cause : Cause          -- rule R22
  info  : Nat            -- rule R22; DESIGN CHOICE, log entry 4
  out   : List Byte      -- rule R23, oldest first
  deriving DecidableEq, Repr

/-- Why the machine takes no step. -/
inductive Fault where
  /-- Raised by `step` alone, when `RS` is `HALTED` or `FAULTED`: the core has no step in these states
  (10_state.md rule R21; 40_execution_loop.md rules R64 and R65). Safe: the model stops where the machine has
  stopped (DEDUCED, log entry 3). -/
  | notRunning
  deriving DecidableEq, Repr

/-- Why an instruction has no meaning. -/
inductive Refusal where
  /-- An instruction the model does not give a meaning to. Raised by no arm of `exec` today: every instruction
  has its meaning. Safe. -/
  | notModelled (mnemonic : String)
  deriving DecidableEq, Repr

/-- The machine right after reset (10_state.md rule R26; 70_reset_and_hazards.md rules R113 to R115). -/
def State.reset : State where
  regs := ⟨0, 0, 0, 0, 0, 0, 0, Config.spReset⟩
  pc := Config.pcReset
  fl := Config.flReset
  mem := []
  rs := .running
  cause := .none
  info := 0
  out := []

end Sys2Proof.Machine
end

