-- ==== Sys2Proof/Machine/Ops.lean ====
section
/-! DEFINITION. The primitives of 00_scope.md rule R7 over registers, memory, program counter, output channel
and condition record. Entering a condition is the one operation `State.stop`; the machine has no return from
one (60_exceptions.md rule R107). -/

namespace Sys2Proof.Machine

/-! ### Registers -/

/-- The value of one register of a register file. -/
def Regs.get (f : Regs) (r : Reg) : Byte :=
  match r with
  | 0 => f.x0
  | 1 => f.x1
  | 2 => f.x2
  | 3 => f.x3
  | 4 => f.x4
  | 5 => f.x5
  | 6 => f.x6
  | 7 => f.x7

/-- The register file with one register replaced. -/
def Regs.set (f : Regs) (r : Reg) (v : Byte) : Regs :=
  match r with
  | 0 => { f with x0 := v }
  | 1 => { f with x1 := v }
  | 2 => { f with x2 := v }
  | 3 => { f with x3 := v }
  | 4 => { f with x4 := v }
  | 5 => { f with x5 := v }
  | 6 => { f with x6 := v }
  | 7 => { f with x7 := v }

/-- `x[r]`. No register is hardwired (10_state.md rule R11). -/
def State.reg (s : State) (r : Reg) : Byte := s.regs.get r

/-- `x[r] <- v`. -/
def State.setReg (s : State) (r : Reg) (v : Byte) : State := { s with regs := s.regs.set r v }

/-- `x[7]`, the stack pointer (10_state.md rule R12). -/
def State.sp (s : State) : Byte := s.reg Config.spIndex

/-- `x[7] <- v`. -/
def State.setSp (s : State) (v : Byte) : State := s.setReg Config.spIndex v

/-! ### Program counter, flags, output -/

/-- `pc <- t` for a jump target, an 8-bit register value (43_control_flow.md rule R73). -/
def State.jumpTo (s : State) (t : Byte) : State := { s with pc := t.setWidth 9 }

/-- `pc <- pc + n`, the sequential advance (10_state.md rule R16). In states that no run reaches (`pc` over 256)
the 9-bit sum may wrap (DEDUCED, log entry 2). -/
def State.advance (s : State) (n : PcWord) : State := { s with pc := s.pc + n }

/-- `FL <- v`. -/
def State.setFl (s : State) (v : Byte) : State := { s with fl := v }

/-- `Out(v)`: append to the output channel (10_state.md rule R23). -/
def State.emit (s : State) (v : Byte) : State := { s with out := s.out ++ [v] }

/-! ### Memory cells -/

/-- The byte at an address; an unlisted address holds 0. -/
def Memory.get : Memory → Nat → Byte
  | [], _ => 0
  | (k, v) :: rest, a => if k = a then v else Memory.get rest a

/-- The cells without the one at an address. -/
def Memory.erase (m : Memory) (a : Nat) : Memory := m.filter (fun c => c.1 != a)

/-- The cells with a byte put at an address, before the first greater address. -/
def Memory.insert : Memory → Nat → Byte → Memory
  | [], a, v => [(a, v)]
  | (k, w) :: rest, a, v =>
    if a < k then (a, v) :: (k, w) :: rest
    else if a = k then (a, v) :: rest
    else (k, w) :: Memory.insert rest a v

/-- The memory with the byte at one address replaced, in canonical form (DESIGN CHOICE, log entry 6). -/
def Memory.set (m : Memory) (a : Nat) (v : Byte) : Memory :=
  if v = 0 then m.erase a else m.insert a v

/-- The memory with a list of bytes placed from an address upwards; bytes that would lie beyond the last cell
are dropped. -/
def Memory.place (m : Memory) (a : Nat) : List Byte → Memory
  | [] => m
  | b :: bs => Memory.place (if a < Config.memSize then m.set a b else m) (a + 1) bs

/-- The content of a memory cell of the state. -/
def State.byteAt (s : State) (a : Nat) : Byte := s.mem.get a

/-! ### Conditions -/

/-- The events that end a run, each with the value it records (60_exceptions.md rule R96). -/
inductive Condition where
  | hlt
  | unrecognizedOpcode (op : Byte)
  | modByZero
  | addressRange (addr : Nat)
  | registerIndex (operand : Byte)
  | returnAddressRange (ret : Nat)
  deriving DecidableEq, Repr

/-- The numbers of the causes (60_exceptions.md rule R96; the spec's decision D9). -/
def Cause.code : Cause → Nat
  | .none => 0
  | .hlt => 1
  | .unrecognizedOpcode => 2
  | .modByZero => 3
  | .addressRange => 4
  | .registerIndex => 5
  | .returnAddressRange => 6

/-- The cause a condition leaves (60_exceptions.md rule R96). -/
def Condition.cause : Condition → Cause
  | .hlt => .hlt
  | .unrecognizedOpcode _ => .unrecognizedOpcode
  | .modByZero => .modByZero
  | .addressRange _ => .addressRange
  | .registerIndex _ => .registerIndex
  | .returnAddressRange _ => .returnAddressRange

/-- What `INFO` records (60_exceptions.md rule R96). -/
def Condition.info : Condition → Nat
  | .hlt => 0
  | .unrecognizedOpcode op => op.toNat
  | .modByZero => 0
  | .addressRange addr => addr
  | .registerIndex operand => operand.toNat
  | .returnAddressRange ret => ret

/-- The run state a condition leaves (60_exceptions.md rules R95 and R96). -/
def Condition.runState : Condition → RunState
  | .hlt | .unrecognizedOpcode _ => .halted
  | .modByZero | .addressRange _ | .registerIndex _ | .returnAddressRange _ => .faulted

/-- Entering a condition, `halt` and `raise` of 00_scope.md rule R7: `RS`, `CAUSE` and `INFO` are written and
nothing else changes; `pc` stays (60_exceptions.md rules R104 and R106). -/
def State.stop (s : State) (c : Condition) : State :=
  { s with rs := c.runState, cause := c.cause, info := c.info }

/-- The end of a handler: its result, or the condition it raised, entered from the state the instruction
started in, so that a raising handler has no other effect (60_exceptions.md rule R104). -/
def complete (s : State) : Except Condition State → Host.Outcome State Fault Refusal
  | .ok t => .next t
  | .error c => .next (s.stop c)

/-! ### Memory accesses -/

/-- `MemRead(addr, 1)`: no side effect; over 255 it raises `AddressRange` (00_scope.md rule R7;
20_memory.md rules R28 and R30). -/
def memRead (s : State) (addr : Nat) : Except Condition Byte :=
  if addr < Config.memSize then .ok (s.byteAt addr) else .error (.addressRange addr)

/-- `MemWrite(addr, 1, v)`: replaces one cell; over 255 it raises `AddressRange` (00_scope.md rule R7;
20_memory.md rules R28 and R30). -/
def memWrite (s : State) (addr : Nat) (v : Byte) : Except Condition State :=
  if addr < Config.memSize then .ok { s with mem := s.mem.set addr v } else .error (.addressRange addr)

end Sys2Proof.Machine
end

