-- ==== Sys2Proof/Machine/Flags.lean ====
section
/-! DEFINITION. The flags register (10_state.md rules R18 to R20) and its only computation, CMP's
(44_alu.md rule R83). -/

namespace Sys2Proof.Machine

/-- E, bit 0 of `FL`: the only flag an instruction reads (10_state.md rule R19). -/
def State.flagE (s : State) : Bool := s.fl.getLsbD 0

/-- G, bit 1 of `FL`. -/
def State.flagG (s : State) : Bool := s.fl.getLsbD 1

/-- L, bit 2 of `FL`. -/
def State.flagL (s : State) : Bool := s.fl.getLsbD 2

/-- The whole `FL` byte after comparing `x` with `y`, unsigned: E, G or L (44_alu.md rule R83). -/
def compareFlags (x y : Byte) : Byte :=
  if x = y then 0b00000001
  else if y < x then 0b00000010
  else 0b00000100

end Sys2Proof.Machine
end

