-- ==== Sys2Proof/Machine/Operands.lean ====
section
/-! DEFINITION. Register operands (30_encoding.md rule R46) and the register-operand check of
40_execution_loop.md rule R62, once for one operand and once for two. -/

namespace Sys2Proof.Machine

/-- The operand byte that names a register (30_encoding.md rule R46). -/
def regByte (r : Reg) : Byte := BitVec.ofNat 8 r.val

/-- The register an operand byte names; 8 to 255 name none and raise `RegisterIndex`
(30_encoding.md rule R46; 40_execution_loop.md rule R62). -/
def regOperand (b : Byte) : Except Condition Reg :=
  if h : b.toNat < 8 then .ok ⟨b.toNat, h⟩ else .error (.registerIndex b)

/-- A handler with one register operand (formats `F1` and `F2I`): the check of `a`, then the handler. -/
def withReg (a : Byte) (s : State) (handler : Reg → Except Condition State) :
    Host.Outcome State Fault Refusal :=
  match regOperand a with
  | .error c => complete s (.error c)
  | .ok ra => complete s (handler ra)

/-- A handler with two register operands (format `F2R`): the check of `a`, then of `b`, then the handler. -/
def withRegs (a b : Byte) (s : State) (handler : Reg → Reg → Except Condition State) :
    Host.Outcome State Fault Refusal :=
  withReg a s fun ra =>
    match regOperand b with
    | .error c => .error c
    | .ok rb => handler ra rb

end Sys2Proof.Machine
end

