-- ==== Sys2Proof/Machine/Alu.lean ====
section
/-! DEFINITION. The ten ALU instructions (44_alu.md). -/

namespace Sys2Proof.Machine

/-- SHL's result: the low 8 bits of `x * 2^n`, the amount not reduced (44_alu.md rule R88). -/
def shiftLeft (x n : Byte) : Byte := x <<< n.toNat

/-- SHR's result: `x / 2^n` rounded down, the amount not reduced (44_alu.md rule R89). -/
def shiftRight (x n : Byte) : Byte := x >>> n.toNat

/-- The common form of the ALU instructions that write a register: both inputs are read before `x[a]` is
written; `pc <- pc + 3` (44_alu.md rule R79). -/
def aluWrite (f : Byte → Byte → Byte) (s : State) (ra rb : Reg) : State :=
  (s.setReg ra (f (s.reg ra) (s.reg rb))).advance 3

/-- ADD (44_alu.md rule R81). -/
def execAdd (a b : Byte) (s : State) : Host.Outcome State Fault Refusal :=
  withRegs a b s fun ra rb => .ok (aluWrite (fun x y => x + y) s ra rb)

/-- MUL (44_alu.md rule R82). -/
def execMul (a b : Byte) (s : State) : Host.Outcome State Fault Refusal :=
  withRegs a b s fun ra rb => .ok (aluWrite (fun x y => x * y) s ra rb)

/-- CMP: writes `FL` and no register (44_alu.md rule R83). -/
def execCmp (a b : Byte) (s : State) : Host.Outcome State Fault Refusal :=
  withRegs a b s fun ra rb => .ok ((s.setFl (compareFlags (s.reg ra) (s.reg rb))).advance 3)

/-- AND (44_alu.md rule R84). -/
def execAnd (a b : Byte) (s : State) : Host.Outcome State Fault Refusal :=
  withRegs a b s fun ra rb => .ok (aluWrite (fun x y => x &&& y) s ra rb)

/-- OR (44_alu.md rule R85). -/
def execOr (a b : Byte) (s : State) : Host.Outcome State Fault Refusal :=
  withRegs a b s fun ra rb => .ok (aluWrite (fun x y => x ||| y) s ra rb)

/-- XOR (44_alu.md rule R86). -/
def execXor (a b : Byte) (s : State) : Host.Outcome State Fault Refusal :=
  withRegs a b s fun ra rb => .ok (aluWrite (fun x y => x ^^^ y) s ra rb)

/-- NOT: the complement of `x[b]`; the old `x[a]` is no input (44_alu.md rule R87). -/
def execNot (a b : Byte) (s : State) : Host.Outcome State Fault Refusal :=
  withRegs a b s fun ra rb => .ok (aluWrite (fun _ y => ~~~y) s ra rb)

/-- SHL: the amount is `x[b]` (44_alu.md rule R88). -/
def execShl (a b : Byte) (s : State) : Host.Outcome State Fault Refusal :=
  withRegs a b s fun ra rb => .ok (aluWrite shiftLeft s ra rb)

/-- SHR: the amount is `x[b]` (44_alu.md rule R89). -/
def execShr (a b : Byte) (s : State) : Host.Outcome State Fault Refusal :=
  withRegs a b s fun ra rb => .ok (aluWrite shiftRight s ra rb)

/-- MOD: a zero divisor raises `ModByZero`; else the unsigned remainder (44_alu.md rule R90). -/
def execMod (a b : Byte) (s : State) : Host.Outcome State Fault Refusal :=
  withRegs a b s fun ra rb =>
    if s.reg rb = 0 then .error .modByZero
    else .ok (aluWrite (fun x y => x % y) s ra rb)

end Sys2Proof.Machine
end

