-- ==== Sys2Proof/Machine/Stack.lean ====
section
/-! DEFINITION. The stack: the push and the pop of 42_stack.md rule R69, and PUSH, POP. -/

namespace Sys2Proof.Machine

/-- The first half of a push: `x[7] <- (x[7] - 1) mod 256` (42_stack.md rules R69 and R70). -/
def decrementSp (s : State) : State := s.setSp (s.sp - 1)

/-- The second half of a push: a byte written to the cell `x[7]` (42_stack.md rule R70). -/
def storeTop (s : State) (v : Byte) : Except Condition State := memWrite s s.sp.toNat v

/-- PUSH: the byte is `x[a]` read after the decrement; `pc <- pc + 2` (42_stack.md rule R70). -/
def execPush (a : Byte) (s : State) : Host.Outcome State Fault Refusal :=
  withReg a s fun ra => do
    let s1 := decrementSp s
    let s2 ← storeTop s1 (s1.reg ra)
    .ok (s2.advance 2)

/-- POP: `x[a]` from the cell `x[7]`, then `x[7] <- (x[7] + 1) mod 256`, read after the write of `x[a]`;
`pc <- pc + 2` (42_stack.md rule R71). -/
def execPop (a : Byte) (s : State) : Host.Outcome State Fault Refusal :=
  withReg a s fun ra => do
    let v ← memRead s s.sp.toNat
    let s1 := s.setReg ra v
    .ok ((s1.setSp (s1.sp + 1)).advance 2)

end Sys2Proof.Machine
end

