-- ==== Sys2Proof/Machine/Control.lean ====
section
/-! DEFINITION. Control transfer: CALL, JUMP, JEQ, JNE (43_control_flow.md). -/

namespace Sys2Proof.Machine

/-- CALL: a return address over 255 raises `ReturnAddressRange` before anything moves; else it is pushed and
`pc` becomes `x[a]`, read after the decrement (43_control_flow.md rule R74). -/
def execCall (a : Byte) (s : State) : Host.Outcome State Fault Refusal :=
  withReg a s fun ra =>
    let ret := s.pc.toNat + 2
    if 255 < ret then .error (.returnAddressRange ret)
    else do
      let s1 ← storeTop (decrementSp s) (BitVec.ofNat 8 ret)
      .ok (s1.jumpTo (s1.reg ra))

/-- JUMP: `pc <- x[a]` (43_control_flow.md rule R75). -/
def execJump (a : Byte) (s : State) : Host.Outcome State Fault Refusal :=
  withReg a s fun ra => .ok (s.jumpTo (s.reg ra))

/-- A conditional jump: to `x[a]` when taken, else past its two bytes (43_control_flow.md rule R73). -/
def jumpIf (taken : Bool) (ra : Reg) (s : State) : State :=
  if taken then s.jumpTo (s.reg ra) else s.advance 2

/-- JEQ: taken when E is 1 (43_control_flow.md rule R76). -/
def execJeq (a : Byte) (s : State) : Host.Outcome State Fault Refusal :=
  withReg a s fun ra => .ok (jumpIf s.flagE ra s)

/-- JNE: taken when E is 0 (43_control_flow.md rule R77). -/
def execJne (a : Byte) (s : State) : Host.Outcome State Fault Refusal :=
  withReg a s fun ra => .ok (jumpIf (!s.flagE) ra s)

end Sys2Proof.Machine
end

