-- ==== Sys2Proof/Machine/Halt.lean ====
section
/-! DEFINITION. The system instruction HLT (45_halt.md). -/

namespace Sys2Proof.Machine

/-- HLT: `halt(Hlt, 0)`; `pc` stays (45_halt.md rule R93). -/
def execHlt (s : State) : Host.Outcome State Fault Refusal := complete s (.error .hlt)

end Sys2Proof.Machine
end

