-- ==== Sys2Proof/Machine/Load.lean ====
section
/-! DEFINITION. Data movement and output: LDI, PRN (41_load_and_output.md). -/

namespace Sys2Proof.Machine

/-- LDI: `x[a] <- imm`, `pc <- pc + 3` (41_load_and_output.md rule R67). -/
def execLdi (a imm : Byte) (s : State) : Host.Outcome State Fault Refusal :=
  withReg a s fun ra => .ok ((s.setReg ra imm).advance 3)

/-- PRN: `Out(x[a])`, `pc <- pc + 2` (41_load_and_output.md rule R68). -/
def execPrn (a : Byte) (s : State) : Host.Outcome State Fault Refusal :=
  withReg a s fun ra => .ok ((s.emit (s.reg ra)).advance 2)

end Sys2Proof.Machine
end

