-- ==== Sys2Proof/Machine/Fetch.lean ====
section
/-! DEFINITION. The fetch unit (40_execution_loop.md rules R58 to R60). -/

namespace Sys2Proof.Machine

/-- The latches of one step: the opcode byte and the operand bytes (10_state.md rule R25). An operand byte that
was not fetched holds 0 here; under a map that satisfies 30_encoding.md rule R49 nothing reads it (DESIGN CHOICE, log entry 5). -/
structure Fetched where
  op : Byte
  a  : Byte
  b  : Byte
  deriving DecidableEq, Repr

/-- The operand fetch: `a` at `pc+1` if `N >= 1`, then `b` at `pc+2` if `N >= 2`; two bytes for `N = 3`
(40_execution_loop.md rule R60; 30_encoding.md rule R45). -/
def fetchOperands (s : State) (op : Byte) : Except Condition Fetched :=
  if operandCount op = 0 then .ok ⟨op, 0, 0⟩
  else do
    let a ← memRead s (s.pc.toNat + 1)
    if operandCount op = 1 then .ok ⟨op, a, 0⟩
    else do
      let b ← memRead s (s.pc.toNat + 2)
      .ok ⟨op, a, b⟩

/-- The whole fetch: the opcode at `pc` (40_execution_loop.md rule R58), then its operands. -/
def fetch (s : State) : Except Condition Fetched := do
  let op ← memRead s s.pc.toNat
  fetchOperands s op

/-- The bytes that lie at `pc`, `pc+1` and `pc+2`, as far as there are cells: what a decoder of byte lists sees
of the next instruction. -/
def State.codeBytes (s : State) : List Byte :=
  ([s.pc.toNat, s.pc.toNat + 1, s.pc.toNat + 2].filter (fun a => a < Config.memSize)).map s.byteAt

end Sys2Proof.Machine
end

