-- ==== Sys2Proof/Machine/Loop.lean ====
section
/-! DEFINITION. The body of the execution loop (40_execution_loop.md rules R57 and R64), for any opcode map. -/

namespace Sys2Proof.Machine

/-- One step with the given opcode map: fetch, lookup, handler; the conditions in the priority order of
60_exceptions.md rule R103. Only a `RUNNING` machine has a step (40_execution_loop.md rule R64; DEDUCED, log entry 3). -/
def loopBody (om : OpcodeMap) (s : State) : Host.Outcome State Fault Refusal :=
  match s.rs with
  | .running =>
    match fetch s with
    | .error c => complete s (.error c)
    | .ok f =>
      match lookup om f.op with
      | none => complete s (.error (.unrecognizedOpcode f.op))
      | some m => exec (makeInstr m f.a f.b) s
  | .halted => .fault .notRunning
  | .faulted => .fault .notRunning

/-- The state whose next step runs the bytes given: they are placed at `pc`, and the machine is `RUNNING` with
an empty condition record, as a step needs (DESIGN CHOICE, log entry 8). -/
def State.withCodeBytes (s : State) (bytes : List Byte) : State :=
  { s with mem := s.mem.place s.pc.toNat bytes, rs := .running, cause := .none, info := 0 }

end Sys2Proof.Machine
end

