-- ==== Sys2Proof/Machine/Step.lean ====
section
/-! DEFINITION. The step of the machine, and the placing of a table word where the next step fetches it. -/

namespace Sys2Proof.Machine

/-- One step: the loop body of 40_execution_loop.md rule R64 with the default opcode map. -/
def step (s : State) : Host.Outcome State Fault Refusal := loopBody opcodeMap s

/-- `s` with the instruction of a table word at `pc` (DESIGN CHOICE, log entry 8). -/
def State.withFetchWord (s : State) (nbits w : Nat) : State := s.withCodeBytes (tableBytes nbits w)

end Sys2Proof.Machine
end

