-- ==== Sys2Proof/Machine/HostOps.lean ====
section
/-! DEFINITION. The host's operations: load, run, read-back (70_reset_and_hazards.md rules R116, R119, R120).
`State.reset` is the reset (rule R113). -/

namespace Sys2Proof.Machine

/-- Why `load` fails. -/
inductive LoadError where
  | imageTooLong (n : Nat)     -- an image of n > 256 bytes (70_reset_and_hazards.md rule R119, decision D17)
  deriving DecidableEq, Repr

/-- `load(bytes)`: at most 256 bytes go to the cells from 0 on and nothing else changes; a longer image is an
error and writes nothing (70_reset_and_hazards.md rule R119). -/
def load (bytes : List Byte) (s : State) : Except LoadError State :=
  if bytes.length ≤ Config.memSize then .ok { s with mem := s.mem.place 0 bytes }
  else .error (.imageTooLong bytes.length)

/-- At most `n` steps of `run`, which repeats the step while `RS = RUNNING` and returns the state it stopped in
(70_reset_and_hazards.md rule R120). The bound is the model's, for a run may never end
(40_execution_loop.md rule R66): `RunResult` has none (DESIGN CHOICE, log entry 7). -/
def runFor : Nat → State → State
  | 0, s => s
  | n + 1, s =>
    match step s with
    | .next t => runFor n t
    | .fault _ => s
    | .refused _ => s

/-- `run` from `s` returns to the host with the final state `t` (70_reset_and_hazards.md rule R120). -/
def RunResult (s t : State) : Prop := ∃ n, runFor n s = t ∧ t.rs ≠ .running

/-- Read-back: the host reads the state when `RS` is not `RUNNING` (20_memory.md rule R42;
70_reset_and_hazards.md rule R120). -/
def readBack (s : State) : Option State :=
  match s.rs with
  | .running => none
  | .halted => some s
  | .faulted => some s

end Sys2Proof.Machine
end

