-- ==== Sys2Proof/Safety.lean ====
section
/-! DEFINITION. What counts as a legal state and as a good end of a run, and the read, write and program counter
tables of 10_state.md rules R13 and R16, in the terms the claims use. -/

namespace Sys2Proof.Machine

/-- The program counter is a value a run can reach (10_state.md rule R17). -/
abbrev State.PcInRange (s : State) : Prop := s.pc.toNat ≤ 256

/-- `FL` holds one of the values of 10_state.md rule R20. -/
abbrev State.FlLegal (s : State) : Prop := s.fl = 0x00 ∨ s.fl = 0x01 ∨ s.fl = 0x02 ∨ s.fl = 0x04

/-- `RS`, `CAUSE`, `INFO` are a row of the table of 60_exceptions.md rule R96, and `pc` is where that condition
can be raised (rules R100 and R102). -/
abbrev State.RecordLegal (s : State) : Prop :=
  (s.rs = .running ∧ s.cause = .none ∧ s.info = 0) ∨
  (s.rs = .halted ∧ s.cause = .hlt ∧ s.info = 0) ∨
  (s.rs = .halted ∧ s.cause = .unrecognizedOpcode ∧ s.info ≤ 255) ∨
  (s.rs = .faulted ∧ s.cause = .modByZero ∧ s.info = 0) ∨
  (s.rs = .faulted ∧ s.cause = .addressRange ∧ s.info = 256 ∧ 254 ≤ s.pc.toNat) ∨
  (s.rs = .faulted ∧ s.cause = .registerIndex ∧ 8 ≤ s.info ∧ s.info ≤ 255) ∨
  (s.rs = .faulted ∧ s.cause = .returnAddressRange ∧ s.info = 256 ∧ s.pc.toNat = 254)

/-- The invariant of the machine: canonical memory inside 0 to 255, and the three facts above. -/
abbrev State.Inv (s : State) : Prop := s.mem.wf ∧ s.PcInRange ∧ s.FlLegal ∧ s.RecordLegal

/-- The only normal end of a run: HLT was executed (60_exceptions.md rule R97; 93_implementation_defined.md U4). -/
abbrev State.NormalEnd (s : State) : Prop := s.rs = .halted ∧ s.cause = .hlt

/-- A run from `s` returns, and returns at a HLT. -/
def RunsNormally (s : State) : Prop := ∃ t, RunResult s t ∧ t.NormalEnd

/-- The numbers of the registers an instruction writes (10_state.md rule R13, third column). -/
def writtenRegs : Instr → List Nat
  | .ldi a _ => [a.toNat]
  | .prn _ => []
  | .push _ => [7]
  | .pop a => [a.toNat, 7]
  | .call _ => [7]
  | .jump _ => []
  | .jeq _ => []
  | .jne _ => []
  | .add a _ | .mul a _ | .and a _ | .or a _ | .xor a _ | .mod a _ | .shl a _ | .shr a _ => [a.toNat]
  | .not a _ => [a.toNat]
  | .cmp _ _ => []
  | .hlt => []

/-- The numbers of the registers an instruction reads when it runs in `s` (10_state.md rule R13, second column:
the conditional jumps read `x[a]` only when taken). -/
def readRegs (s : State) : Instr → List Nat
  | .ldi _ _ => []
  | .prn a => [a.toNat]
  | .push a => [7, a.toNat]
  | .pop _ => [7]
  | .call a => [7, a.toNat]
  | .jump a => [a.toNat]
  | .jeq a => if s.fl.getLsbD 0 then [a.toNat] else []
  | .jne a => if s.fl.getLsbD 0 then [] else [a.toNat]
  | .add a b | .mul a b | .and a b | .or a b | .xor a b | .mod a b | .shl a b | .shr a b => [a.toNat, b.toNat]
  | .not _ b => [b.toNat]
  | .cmp a b => [a.toNat, b.toNat]
  | .hlt => []

/-- A register's value as an address, by the operand byte that names it; 0 for a byte that names none. -/
def regAddress (s : State) (a : Byte) : PcWord :=
  if h : a.toNat < 8 then (s.reg ⟨a.toNat, h⟩).setWidth 9 else 0

/-- The program counter after an instruction that completed, from the state `s` before and the state `t` after
(10_state.md rule R16). The target of CALL is read in `t`, since CALL reads `x[a]` after its decrement
(43_control_flow.md rule R74). -/
def pcAfter (s t : State) : Instr → PcWord
  | .ldi _ _ => s.pc + 3
  | .prn _ | .push _ | .pop _ => s.pc + 2
  | .add _ _ | .mul _ _ | .cmp _ _ | .and _ _ | .or _ _ | .xor _ _ | .not _ _ | .shl _ _ | .shr _ _
  | .mod _ _ => s.pc + 3
  | .call a | .jump a => regAddress t a
  | .jeq a => if s.fl.getLsbD 0 then regAddress s a else s.pc + 2
  | .jne a => if s.fl.getLsbD 0 then s.pc + 2 else regAddress s a
  | .hlt => s.pc

end Sys2Proof.Machine
end

