-- ==== Sys2Proof/Certificates/Slice0/Obligations.lean ====
section
/-! DEFINITION. The statements for the provers: what the instructions and the machine do, from the rules of spec/.
Each docstring names the rule or section it formalises, and what of it is the spec's own decision (D<n> of
92_eei_decisions.md) or the model's choice (a log entry). In every statement about an instruction the opcode byte is
that of the default map (decisions D1 and D2, log entry 1), RegisterIndex rests on decision D7 and AddressRange on D4
(log entry 9). A statement over all states holds also in states no run
reaches. -/

namespace Sys2Proof.Claims

open Sys2Proof.Machine

/-! ### Words the statements share -/

/-- Encoding and common conditions of a one-byte instruction without operand (format `F0`): its byte, what a step
does when it lies at `pc`, and the opcode fetch beyond the last cell. -/
def FormatF0 (op : Byte) (i : Instr) : Prop :=
  encode i = [op] ∧ (∀ rest, decode (op :: rest) = .ok i) ∧
  (∀ s : State, s.rs = .running → s.pc.toNat ≤ 255 → s.byteAt s.pc.toNat = op → step s = exec i s) ∧
  (∀ s : State, s.rs = .running → 255 < s.pc.toNat →
    step s = .next { s with rs := .faulted, cause := .addressRange, info := s.pc.toNat })

/-- Encoding and conditions of a two-byte instruction with one register operand (format `F1`): the bytes
`op aa`; with the opcode at `pc <= 254` the step runs it on the byte at `pc+1`; at `pc = 255` the operand fetch
raises AddressRange(256); an operand byte over 7 raises RegisterIndex. -/
def FormatF1 (op : Byte) (mk : Byte → Instr) : Prop :=
  (∀ a, encode (mk a) = [op, a]) ∧ (∀ a rest, decode (op :: a :: rest) = .ok (mk a)) ∧
  (∀ s : State, s.rs = .running → s.pc.toNat ≤ 254 → s.byteAt s.pc.toNat = op →
    step s = exec (mk (s.byteAt (s.pc.toNat + 1))) s) ∧
  (∀ s : State, s.rs = .running → s.pc.toNat = 255 → s.byteAt 255 = op →
    step s = .next { s with rs := .faulted, cause := .addressRange, info := 256 }) ∧
  (∀ (a : Byte) (s : State), 7 < a.toNat →
    exec (mk a) s = .next { s with rs := .faulted, cause := .registerIndex, info := a.toNat })

/-- Encoding and fetch of a three-byte instruction: the bytes `op aa bb`; with the opcode at `pc <= 253` the step
runs it on the bytes at `pc+1` and `pc+2`; at `pc = 254` or `255` the operand fetch raises AddressRange(256). -/
def ThreeBytes (op : Byte) (mk : Byte → Byte → Instr) : Prop :=
  (∀ a b, encode (mk a b) = [op, a, b]) ∧ (∀ a b rest, decode (op :: a :: b :: rest) = .ok (mk a b)) ∧
  (∀ s : State, s.rs = .running → s.pc.toNat ≤ 253 → s.byteAt s.pc.toNat = op →
    step s = exec (mk (s.byteAt (s.pc.toNat + 1)) (s.byteAt (s.pc.toNat + 2))) s) ∧
  (∀ s : State, s.rs = .running → 254 ≤ s.pc.toNat → s.pc.toNat ≤ 255 → s.byteAt s.pc.toNat = op →
    step s = .next { s with rs := .faulted, cause := .addressRange, info := 256 })

/-- A three-byte instruction with a register and an immediate (format `F2I`): only `a` is checked. -/
def FormatF2I (op : Byte) (mk : Byte → Byte → Instr) : Prop :=
  ThreeBytes op mk ∧
  (∀ (a b : Byte) (s : State), 7 < a.toNat →
    exec (mk a b) s = .next { s with rs := .faulted, cause := .registerIndex, info := a.toNat })

/-- A three-byte instruction with two registers (format `F2R`): `a` is checked, then `b`. -/
def FormatF2R (op : Byte) (mk : Byte → Byte → Instr) : Prop :=
  ThreeBytes op mk ∧
  (∀ (a b : Byte) (s : State), 7 < a.toNat →
    exec (mk a b) s = .next { s with rs := .faulted, cause := .registerIndex, info := a.toNat }) ∧
  (∀ (a b : Byte) (s : State), a.toNat ≤ 7 → 7 < b.toNat →
    exec (mk a b) s = .next { s with rs := .faulted, cause := .registerIndex, info := b.toNat })

/-- The stack pointer one below, modulo 256 (42_stack.md, stack discipline; decision D11). -/
def spBelow (s : State) : Byte := BitVec.ofNat 8 ((s.sp.toNat + 255) % 256)

/-- The condition record is as before, or a condition was raised: then registers and `pc` are as before too. -/
def RecordKeptOrStopped (s t : State) : Prop :=
  (t.rs = s.rs ∧ t.cause = s.cause ∧ t.info = s.info) ∨
    (t.rs = .faulted ∧ (∀ r : Reg, t.reg r = s.reg r) ∧ t.pc = s.pc)

/-! ### The step function of 40_execution_loop.md rule R64, written out from its pseudocode -/

/-- `x[n]`, for an operand byte `n` of 0 to 7. -/
def specReg (s : State) (n : Byte) : Byte := s.regs.get (Fin.ofNat 8 n.toNat)

/-- `x[n] <- v mod 256; pc <- pc + k`. -/
def specWrite (s : State) (n : Byte) (v : Nat) (k : PcWord) : State :=
  { s with regs := s.regs.set (Fin.ofNat 8 n.toNat) (BitVec.ofNat 8 (v % 256)), pc := s.pc + k }

/-- `halt` and `raise` of 00_scope.md rule R7. -/
def specStop (s : State) (rs : RunState) (cause : Cause) (info : Nat) : State :=
  { s with rs := rs, cause := cause, info := info }

/-- The `case` of the ALU instructions, after both register checks. -/
def specAlu (s : State) (op a b : Byte) : State :=
  let x := (specReg s a).toNat
  let y := (specReg s b).toNat
  if op = 0xA0 then specWrite s a (x + y) 3
  else if op = 0xA2 then specWrite s a (x * y) 3
  else if op = 0xA4 then
    if y = 0 then specStop s .faulted .modByZero 0 else specWrite s a (x % y) 3
  else if op = 0xA7 then { s with fl := if x = y then 1 else if x > y then 2 else 4, pc := s.pc + 3 }
  else if op = 0xA8 then specWrite s a (x &&& y) 3
  else if op = 0xA9 then specWrite s a (255 - y) 3
  else if op = 0xAA then specWrite s a (x ||| y) 3
  else if op = 0xAB then specWrite s a (x ^^^ y) 3
  else if op = 0xAC then specWrite s a (x * 2 ^ y) 3
  else specWrite s a (x / 2 ^ y) 3

/-- The `case` of the instructions with one register operand, after its check. -/
def specOne (s : State) (op a imm : Byte) : State :=
  let target : PcWord := BitVec.ofNat 9 (specReg s a).toNat
  let below := s.setReg 7 (spBelow s)
  if op = 0x82 then specWrite s a imm.toNat 3
  else if op = 0x47 then { s with out := s.out ++ [specReg s a], pc := s.pc + 2 }
  else if op = 0x45 then
    { below with mem := s.mem.set (spBelow s).toNat (specReg below a), pc := s.pc + 2 }
  else if op = 0x46 then
    let loaded := s.setReg (Fin.ofNat 8 a.toNat) (s.byteAt s.sp.toNat)
    specWrite loaded 7 (loaded.sp.toNat + 1) 2
  else if op = 0x50 then
    if s.pc.toNat + 2 > 255 then specStop s .faulted .returnAddressRange (s.pc.toNat + 2)
    else { below with
      mem := s.mem.set (spBelow s).toNat (BitVec.ofNat 8 (s.pc.toNat + 2)),
      pc := BitVec.ofNat 9 (specReg below a).toNat }
  else if op = 0x54 then { s with pc := target }
  else if op = 0x55 then { s with pc := if s.fl.getLsbD 0 then target else s.pc + 2 }
  else { s with pc := if s.fl.getLsbD 0 then s.pc + 2 else target }

/-- `step()` of rule R64 on a RUNNING machine, with the opcode bytes of 30_encoding.md rule R50. -/
def specStep (s : State) : State :=
  let pc := s.pc.toNat
  let op := s.byteAt pc
  let a := s.byteAt (pc + 1)
  let b := s.byteAt (pc + 2)
  if pc > 255 then specStop s .faulted .addressRange pc
  else if op.toNat / 64 ≥ 1 ∧ pc + 1 > 255 then specStop s .faulted .addressRange (pc + 1)
  else if op.toNat / 64 ≥ 2 ∧ pc + 2 > 255 then specStop s .faulted .addressRange (pc + 2)
  else if op ∈ ([0x47, 0x45, 0x46, 0x50, 0x54, 0x55, 0x56, 0x82] : List Byte) then
    if a.toNat > 7 then specStop s .faulted .registerIndex a.toNat else specOne s op a b
  else if op ∈ ([0xA0, 0xA2, 0xA4, 0xA7, 0xA8, 0xA9, 0xAA, 0xAB, 0xAC, 0xAD] : List Byte) then
    if a.toNat > 7 then specStop s .faulted .registerIndex a.toNat
    else if b.toNat > 7 then specStop s .faulted .registerIndex b.toNat
    else specAlu s op a b
  else if op = 0x01 then specStop s .halted .hlt 0
  else specStop s .halted .unrecognizedOpcode op.toNat

end Sys2Proof.Claims

open Sys2Proof Sys2Proof.Machine Sys2Proof.Claims

/-! ### Reset and encoding -/

/-- Reset state (10_state.md section 6, table of reset values). `FL = 0` is the spec's decision D5, CAUSE and INFO
D9, OUT D16, RS a derivation of the spec (D18); the registers, `pc` and memory are the source's. -/
def Obligations.ResetLeavesTheSpecifiedState : Prop :=
  (∀ r : Reg, State.reset.reg r = if r = 7 then 0xF4 else 0x00) ∧ State.reset.pc = 0 ∧ State.reset.fl = 0x00 ∧
  (∀ a, State.reset.byteAt a = 0x00) ∧ State.reset.rs = .running ∧ State.reset.cause = .none ∧
  State.reset.cause.code = 0 ∧ State.reset.info = 0 ∧ State.reset.out = []

/-- The default opcode map meets the constraints of 30_encoding.md section 3 (distinct values, bits 7:6 the operand
count, no opcode 0), and 237 byte values are unrecognized, every byte from 0xC0 on among them. The map is the
spec's decisions D1 and D2 (log entry 1). -/
def Obligations.DefaultOpcodeMapMeetsItsConstraints : Prop :=
  opcodeMap.Valid ∧ ((List.range 256).filter (fun k => (lookup opcodeMap (BitVec.ofNat 8 k)).isNone)).length = 237 ∧
  (∀ k ∈ List.range 256, 0xC0 ≤ k → (lookup opcodeMap (BitVec.ofNat 8 k)).isNone)

/-- Words written out from the encodings of spec/ decode to the instructions they stand for, one of each format and
family, and three bytes that are no opcode do not (30_encoding.md sections 1, 3 and 4). -/
def Obligations.SampleWordsDecodeAsWritten : Prop :=
  decode [0b00000001] = .ok .hlt ∧ decode [0b01000101, 0b00000111] = .ok (.push 7) ∧
  decode [0b01000110, 0b00000010] = .ok (.pop 2) ∧ decode [0b01000111, 0b00000001] = .ok (.prn 1) ∧
  decode [0b01010000, 0b00000001] = .ok (.call 1) ∧ decode [0b01010101, 0b00000010] = .ok (.jeq 2) ∧
  decode [0b10000010, 0b00000011, 0b11111111] = .ok (.ldi 3 255) ∧
  decode [0b10100000, 0b00000001, 0b00000010] = .ok (.add 1 2) ∧
  decode [0b10101001, 0b00000011, 0b00000000] = .ok (.not 3 0) ∧
  decode [0b10101100, 0b00000000, 0b00000010] = .ok (.shl 0 2) ∧
  decode [0b00000000] = .error (.unrecognizedOpcode 0) ∧
  decode [0b01101001, 0b00000000] = .error (.unrecognizedOpcode 0x69) ∧
  decode [0b11111111, 0b00001001, 0b00001001] = .error (.unrecognizedOpcode 0xFF)

/-- Decode and encode agree under EVERY opcode map that meets the constraints of 30_encoding.md section 3
(decision D1 leaves the map a parameter): whatever follows the encoded instruction, and whatever its operand
bytes, ill-formed ones too. -/
def Obligations.DecodeInvertsEncodeForEveryOpcodeMap : Prop :=
  ∀ om : OpcodeMap, om.Valid → ∀ (i : Instr) (rest : List Byte), decodeWith om (encodeWith om i ++ rest) = .ok i

/-- A list of bytes that decodes begins with the encoding of what it decodes to, under every valid opcode map: no
two instructions share an encoding and the decoder accepts nothing else (30_encoding.md sections 1 and 4). -/
def Obligations.DecodedBytesBeginWithTheirEncoding : Prop :=
  ∀ om : OpcodeMap, om.Valid → ∀ (bytes : List Byte) (i : Instr),
    decodeWith om bytes = .ok i → encodeWith om i <+: bytes ∧ (encodeWith om i).length = i.length

/-! ### The step -/

/-- A step runs the decoded instruction (40_execution_loop.md section 3): when the bytes from `pc` on decode to an
instruction, well-formed or not, the step of a RUNNING machine is that instruction's execution; nothing is added
around it. -/
def Obligations.StepRunsTheDecodedInstruction : Prop :=
  ∀ (s : State) (i : Instr), s.rs = .running → decode s.codeBytes = .ok i → step s = exec i s

/-- An instruction encoded under any valid opcode map and placed at `pc`, so that it ends at or below cell 255, is
what the loop body with that map runs (40_execution_loop.md section 3; decision D1). -/
def Obligations.EncodedInstructionRunsUnderEveryOpcodeMap : Prop :=
  ∀ om : OpcodeMap, om.Valid → ∀ (i : Instr) (s : State), s.rs = .running → s.pc.toNat + i.length ≤ 256 →
    (∀ (k : Nat) (b : Byte), (encodeWith om i)[k]? = some b → s.byteAt (s.pc.toNat + k) = b) →
    loopBody om s = exec i s

/-- The machine's step, built from fetch, table lookup and one meaning per instruction, is the step function that
40_execution_loop.md section 3 writes out as one piece of pseudocode. What `specStep` takes from the spec's own
decisions (log entries 1, 2 and 9): the opcode bytes (D1, D2), the width of `pc` (D3), the address range (D4), the
fetch for operand count 3 (D6), the register check (D7), the run states and causes (D8, D9), priorities (D10), the wrap
of the stack pointer (D11), shifts (D12, D13), CALL's fault (D14), the order of effects (D15), the output channel
(D16), precision (D20), `pc` at an unrecognized opcode (D22) and MOD (D24). -/
def Obligations.StepIsTheSpecifiedStepFunction : Prop :=
  ∀ s : State, s.rs = .running → step s = .next (specStep s)

/-- Fetches beyond the last cell (40_execution_loop.md section 2; decisions D4 and D6): for any opcode byte,
recognized or not, the first out-of-range address is reported and the lookup is not reached. An operand count of 3
fetches two bytes, so an unrecognized byte from 0xC0 on needs `pc+2` in range. -/
def Obligations.FetchBeyondMemoryRaisesAddressRange : Prop :=
  ∀ s : State, s.rs = .running →
    (255 < s.pc.toNat → step s = .next { s with rs := .faulted, cause := .addressRange, info := s.pc.toNat }) ∧
    (s.pc.toNat = 255 → 1 ≤ (s.byteAt 255).toNat / 64 →
      step s = .next { s with rs := .faulted, cause := .addressRange, info := 256 }) ∧
    (s.pc.toNat = 254 → 2 ≤ (s.byteAt 254).toNat / 64 →
      step s = .next { s with rs := .faulted, cause := .addressRange, info := 256 }) ∧
    (s.pc.toNat ≤ 253 → (s.byteAt s.pc.toNat).toNat / 64 = 3 →
      step s = .next { s with rs := .halted, cause := .unrecognizedOpcode, info := (s.byteAt s.pc.toNat).toNat })

/-- Rule R98 of 60_exceptions.md: a fetched opcode byte that is none of the 19 halts the machine with cause 2 and the
byte in INFO; nothing else changes; HLT leaves another cause; an all-zero memory does it at the first step. -/
def Obligations.UnrecognizedOpcodeHaltsTheMachine : Prop :=
  (∀ s : State, s.rs = .running → s.pc.toNat ≤ 255 →
    s.pc.toNat + min ((s.byteAt s.pc.toNat).toNat / 64) 2 ≤ 255 →
    s.byteAt s.pc.toNat ∉ ([0x01, 0x45, 0x46, 0x47, 0x50, 0x54, 0x55, 0x56, 0x82, 0xA0, 0xA2, 0xA4, 0xA7, 0xA8, 0xA9,
      0xAA, 0xAB, 0xAC, 0xAD] : List Byte) →
    step s = .next { s with rs := .halted, cause := .unrecognizedOpcode, info := (s.byteAt s.pc.toNat).toNat }) ∧
  Cause.unrecognizedOpcode.code = 2 ∧ Cause.hlt.code ≠ Cause.unrecognizedOpcode.code ∧
  step State.reset = .next { State.reset with rs := .halted, cause := .unrecognizedOpcode, info := 0 }

/-- Rules R62 (40_execution_loop.md) and R101 (60_exceptions.md): the register operands are checked in the order `a`,
`b` after the lookup and before the handler; the first one over 7 raises RegisterIndex with that byte and nothing
else changes; LDI's immediate and HLT are never checked; and no instruction whose register operands are 0 to 7
raises it. A byte of 0 to 7 names the register of that number. -/
def Obligations.RegisterOperandsAreCheckedInOrder : Prop :=
  (∀ (i : Instr) (s : State) (b : Byte), i.regOperands.find? (fun b => 7 < b.toNat) = some b →
    exec i s = .next { s with rs := .faulted, cause := .registerIndex, info := b.toNat } ∧
    (s.rs = .running → decode s.codeBytes = .ok i →
      step s = .next { s with rs := .faulted, cause := .registerIndex, info := b.toNat })) ∧
  (∀ (i : Instr) (s t : State), i.regOperands.find? (fun b => 7 < b.toNat) = none → exec i s = .next t →
    t.cause = .registerIndex → s.cause = .registerIndex) ∧
  (∀ b : Byte, b.toNat ≤ 7 → ∃ r : Reg, r.val = b.toNat ∧ b = regByte r) ∧
  Cause.registerIndex.code = 5 ∧ Instr.regOperands .hlt = [] ∧
  (∀ a b, Instr.regOperands (.ldi a b) = [a] ∧ Instr.regOperands (.push a) = [a] ∧ Instr.regOperands (.pop a) = [a] ∧
    Instr.regOperands (.prn a) = [a] ∧ Instr.regOperands (.call a) = [a] ∧ Instr.regOperands (.jump a) = [a] ∧
    Instr.regOperands (.jeq a) = [a] ∧ Instr.regOperands (.jne a) = [a]) ∧
  (∀ a b, ∀ i ∈ [Instr.add a b, .mul a b, .mod a b, .cmp a b, .and a b, .not a b, .or a b, .xor a b, .shl a b,
    .shr a b], i.regOperands = [a, b])

/-- Every condition is precise (60_exceptions.md section 2; decisions D20 and D22): a step that ends the run changes
RS, CAUSE and INFO and nothing else. -/
def Obligations.ConditionsArePrecise : Prop :=
  ∀ s t : State, s.rs = .running → step s = .next t → t.rs ≠ .running →
    t = { s with rs := t.rs, cause := t.cause, info := t.info }

/-- A RUNNING machine always has a step, whatever lies in memory; a HALTED or FAULTED one has none
(40_execution_loop.md sections 3 and 4; 10_state.md section 4). That `step` answers the fault `notRunning` there is
the model's way to say so (log entry 3). -/
def Obligations.RunningMachineStepsAndStoppedMachineDoesNot : Prop :=
  ∀ s : State, (s.rs = .running → ∃ t, step s = .next t) ∧ (s.rs ≠ .running → step s = .fault .notRunning)

/-! ### The instructions, one rule each -/

/-- Rule R67: LDI. -/
def Obligations.LdiLoadsItsImmediate : Prop :=
  FormatF2I 0x82 .ldi ∧ ∀ (ra : Reg) (imm : Byte) (s : State),
    exec (.ldi (regByte ra) imm) s = .next { s with regs := s.regs.set ra imm, pc := s.pc + 3 }

/-- PRN (41_load_and_output.md; the channel that always accepts a value is decision D16). -/
def Obligations.PrnAppendsTheRegisterToTheOutput : Prop :=
  FormatF1 0x47 .prn ∧ ∀ (ra : Reg) (s : State),
    exec (.prn (regByte ra)) s = .next { s with out := s.out ++ [s.reg ra], pc := s.pc + 2 }

/-- PUSH (42_stack.md, PUSH; the wrap of the stack pointer is decision D11, the order of effects D15):
`PUSH R7` stores the decremented value. -/
def Obligations.PushStoresBelowTheStackPointer : Prop :=
  FormatF1 0x45 .push ∧ ∀ (ra : Reg) (s : State),
    exec (.push (regByte ra)) s = .next { s with
      regs := s.regs.set 7 (spBelow s), pc := s.pc + 2,
      mem := s.mem.set (spBelow s).toNat (if ra = 7 then spBelow s else s.reg ra) }

/-- POP (42_stack.md, POP; the wrap is decision D11, the order of effects D15): `POP R7` increments the
byte it loaded. -/
def Obligations.PopLoadsFromTheStackPointer : Prop :=
  FormatF1 0x46 .pop ∧ ∀ (ra : Reg) (s : State),
    exec (.pop (regByte ra)) s = .next { s with
      pc := s.pc + 2,
      regs := if ra = 7 then s.regs.set 7 (BitVec.ofNat 8 (((s.byteAt s.sp.toNat).toNat + 1) % 256))
        else (s.regs.set ra (s.byteAt s.sp.toNat)).set 7 (BitVec.ofNat 8 ((s.sp.toNat + 1) % 256)) }

/-- CALL (43_control_flow.md, CALL; the fault on a return address over 255 is decision D14, the wrap D11,
the order of effects D15): `CALL R7` jumps to the decremented stack pointer. -/
def Obligations.CallPushesTheReturnAddress : Prop :=
  FormatF1 0x50 .call ∧
  (∀ (ra : Reg) (s : State), s.pc.toNat + 2 ≤ 255 →
    exec (.call (regByte ra)) s = .next { s with
      regs := s.regs.set 7 (spBelow s), mem := s.mem.set (spBelow s).toNat (BitVec.ofNat 8 (s.pc.toNat + 2)),
      pc := BitVec.ofNat 9 (if ra = 7 then spBelow s else s.reg ra).toNat }) ∧
  (∀ (ra : Reg) (s : State), 255 < s.pc.toNat + 2 →
    exec (.call (regByte ra)) s =
      .next { s with rs := .faulted, cause := .returnAddressRange, info := s.pc.toNat + 2 })

/-- Rule R75: JUMP. -/
def Obligations.JumpGoesToTheRegister : Prop :=
  FormatF1 0x54 .jump ∧ ∀ (ra : Reg) (s : State),
    exec (.jump (regByte ra)) s = .next { s with pc := BitVec.ofNat 9 (s.reg ra).toNat }

/-- Rule R76: JEQ. -/
def Obligations.JeqJumpsWhenEqual : Prop :=
  FormatF1 0x55 .jeq ∧ State.reset.fl.getLsbD 0 = false ∧ ∀ (ra : Reg) (s : State),
    exec (.jeq (regByte ra)) s =
      .next { s with pc := if s.fl.getLsbD 0 = true then BitVec.ofNat 9 (s.reg ra).toNat else s.pc + 2 }

/-- Rule R77: JNE. -/
def Obligations.JneJumpsWhenNotEqual : Prop :=
  FormatF1 0x56 .jne ∧ State.reset.fl.getLsbD 0 = false ∧ ∀ (ra : Reg) (s : State),
    exec (.jne (regByte ra)) s =
      .next { s with pc := if s.fl.getLsbD 0 = false then BitVec.ofNat 9 (s.reg ra).toNat else s.pc + 2 }

/-- Rule R81: ADD. -/
def Obligations.AddKeepsTheLowEightBitsOfTheSum : Prop :=
  FormatF2R 0xA0 .add ∧ ∀ (ra rb : Reg) (s : State),
    exec (.add (regByte ra) (regByte rb)) s = .next { s with
      regs := s.regs.set ra (BitVec.ofNat 8 (((s.reg ra).toNat + (s.reg rb).toNat) % 256)), pc := s.pc + 3 }

/-- Rule R82: MUL. -/
def Obligations.MulKeepsTheLowEightBitsOfTheProduct : Prop :=
  FormatF2R 0xA2 .mul ∧ ∀ (ra rb : Reg) (s : State),
    exec (.mul (regByte ra) (regByte rb)) s = .next { s with
      regs := s.regs.set ra (BitVec.ofNat 8 (((s.reg ra).toNat * (s.reg rb).toNat) % 256)), pc := s.pc + 3 }

/-- Rule R83: CMP. -/
def Obligations.CmpSetsExactlyOneFlag : Prop :=
  FormatF2R 0xA7 .cmp ∧ ∀ (ra rb : Reg) (s : State),
    exec (.cmp (regByte ra) (regByte rb)) s = .next { s with
      fl := if (s.reg ra).toNat = (s.reg rb).toNat then 0b00000001
        else if (s.reg ra).toNat > (s.reg rb).toNat then 0b00000010 else 0b00000100,
      pc := s.pc + 3 }

/-- Rule R84: AND, bit by bit. -/
def Obligations.AndCombinesBitByBit : Prop :=
  FormatF2R 0xA8 .and ∧ ∀ (ra rb : Reg) (s : State), ∃ v : Byte,
    exec (.and (regByte ra) (regByte rb)) s = .next { s with regs := s.regs.set ra v, pc := s.pc + 3 } ∧
    ∀ k, v.getLsbD k = true ↔ ((s.reg ra).getLsbD k = true ∧ (s.reg rb).getLsbD k = true)

/-- Rule R85: OR, bit by bit. -/
def Obligations.OrCombinesBitByBit : Prop :=
  FormatF2R 0xAA .or ∧ ∀ (ra rb : Reg) (s : State), ∃ v : Byte,
    exec (.or (regByte ra) (regByte rb)) s = .next { s with regs := s.regs.set ra v, pc := s.pc + 3 } ∧
    ∀ k, v.getLsbD k = true ↔ ((s.reg ra).getLsbD k = true ∨ (s.reg rb).getLsbD k = true)

/-- Rule R86: XOR, bit by bit. -/
def Obligations.XorCombinesBitByBit : Prop :=
  FormatF2R 0xAB .xor ∧ ∀ (ra rb : Reg) (s : State), ∃ v : Byte,
    exec (.xor (regByte ra) (regByte rb)) s = .next { s with regs := s.regs.set ra v, pc := s.pc + 3 } ∧
    ∀ k, v.getLsbD k = true ↔ (s.reg ra).getLsbD k ≠ (s.reg rb).getLsbD k

/-- NOT (44_alu.md section 2; the opcode value is the spec's own, decision D2): the result is 255 minus `x[b]`. -/
def Obligations.NotComplementsTheSecondOperand : Prop :=
  FormatF2R 0xA9 .not ∧ ∀ (ra rb : Reg) (s : State),
    exec (.not (regByte ra) (regByte rb)) s = .next { s with
      regs := s.regs.set ra (BitVec.ofNat 8 (255 - (s.reg rb).toNat)), pc := s.pc + 3 }

/-- SHL (44_alu.md section 2; the cut to 8 bits and the unreduced amount are decision D12). -/
def Obligations.ShlShiftsByTheSecondOperand : Prop :=
  FormatF2R 0xAC .shl ∧ ∀ (ra rb : Reg) (s : State),
    exec (.shl (regByte ra) (regByte rb)) s = .next { s with
      regs := s.regs.set ra (BitVec.ofNat 8 (((s.reg ra).toNat * 2 ^ (s.reg rb).toNat) % 256)), pc := s.pc + 3 }

/-- SHR (44_alu.md section 2; logical by decision D13, the unreduced amount by D12). -/
def Obligations.ShrShiftsInZeros : Prop :=
  FormatF2R 0xAD .shr ∧ ∀ (ra rb : Reg) (s : State),
    exec (.shr (regByte ra) (regByte rb)) s = .next { s with
      regs := s.regs.set ra (BitVec.ofNat 8 ((s.reg ra).toNat / 2 ^ (s.reg rb).toNat)), pc := s.pc + 3 }

/-- MOD (44_alu.md section 2; the unsigned remainder is decision D24, precision D20): a zero divisor raises
ModByZero and changes nothing else. -/
def Obligations.ModLeavesTheRemainderOrFaults : Prop :=
  FormatF2R 0xA4 .mod ∧
  (∀ (ra rb : Reg) (s : State), s.reg rb ≠ 0 →
    exec (.mod (regByte ra) (regByte rb)) s = .next { s with
      regs := s.regs.set ra (BitVec.ofNat 8 ((s.reg ra).toNat % (s.reg rb).toNat)), pc := s.pc + 3 }) ∧
  (∀ (ra rb : Reg) (s : State), s.reg rb = 0 →
    exec (.mod (regByte ra) (regByte rb)) s = .next { s with rs := .faulted, cause := .modByZero, info := 0 })

/-- HLT (45_halt.md). After it the core takes no further step; that `step` then answers the fault `notRunning` is the
model's way to say so (DEDUCED, log entry 3). The cause tells it from the unrecognized opcode; it is the only
instruction that completes in cell 255. -/
def Obligations.HltHaltsAtItsOwnAddress : Prop :=
  FormatF0 0x01 .hlt ∧ Cause.hlt.code = 1 ∧ Cause.unrecognizedOpcode.code = 2 ∧
  (∀ s : State, exec .hlt s = .next { s with rs := .halted, cause := .hlt, info := 0 } ∧
    step { s with rs := .halted, cause := .hlt, info := 0 } = .fault .notRunning) ∧
  (∀ s t : State, s.rs = .running → s.pc.toNat = 255 → step s = .next t → t.cause = .hlt ∨ t.rs = .running →
    s.byteAt 255 = 0x01)

/-! ### Frames -/

/-- Frame of the instructions that write one register (41_load_and_output.md, LDI; 44_alu.md sections 1 and 2), on
any operand bytes. -/
def Obligations.RegisterWritersChangeOneRegister : Prop :=
  ∀ (a b : Byte) (s t : State), ∀ i ∈ [Instr.ldi a b, .add a b, .mul a b, .mod a b, .and a b, .not a b, .or a b,
    .xor a b, .shl a b, .shr a b], exec i s = .next t →
    (∀ r : Reg, r.val ≠ a.toNat → t.reg r = s.reg r) ∧ t.fl = s.fl ∧ t.out = s.out ∧
    (∀ addr, t.byteAt addr = s.byteAt addr) ∧ RecordKeptOrStopped s t

/-- Frame of CMP (44_alu.md section 2): no register, no memory, no output. -/
def Obligations.CmpChangesNoRegisterAndNoMemory : Prop :=
  ∀ (a b : Byte) (s t : State), exec (.cmp a b) s = .next t →
    (∀ r : Reg, t.reg r = s.reg r) ∧ t.out = s.out ∧ (∀ addr, t.byteAt addr = s.byteAt addr) ∧
    RecordKeptOrStopped s t ∧ (t.fl = s.fl ∨ t.fl = 0x01 ∨ t.fl = 0x02 ∨ t.fl = 0x04)

/-- Frame of JUMP, JEQ, JNE (43_control_flow.md): no state but `pc`, or the condition record. -/
def Obligations.JumpsChangeOnlyTheProgramCounter : Prop :=
  ∀ (a : Byte) (s t : State), ∀ i ∈ [Instr.jump a, .jeq a, .jne a], exec i s = .next t →
    (∀ r : Reg, t.reg r = s.reg r) ∧ t.fl = s.fl ∧ t.out = s.out ∧
    (∀ addr, t.byteAt addr = s.byteAt addr) ∧ RecordKeptOrStopped s t

/-- Frame of PRN (41_load_and_output.md): no register, no flag, no memory cell; the output gains at most one value. -/
def Obligations.PrnChangesOnlyTheOutput : Prop :=
  ∀ (a : Byte) (s t : State), exec (.prn a) s = .next t →
    (∀ r : Reg, t.reg r = s.reg r) ∧ t.fl = s.fl ∧ (∀ addr, t.byteAt addr = s.byteAt addr) ∧
    RecordKeptOrStopped s t ∧ (t.out = s.out ∨ ∃ r : Reg, r.val = a.toNat ∧ t.out = s.out ++ [s.reg r])

/-- Frame of PUSH and CALL (42_stack.md, PUSH; 43_control_flow.md, CALL): the stack pointer is the only register
that may change, and every byte outside the one stored at the decremented stack pointer reads as before; where a
condition is raised no byte changes at all. -/
def Obligations.PushAndCallStoreOneByte : Prop :=
  ∀ (a : Byte) (s t : State), ∀ i ∈ [Instr.push a, .call a], exec i s = .next t →
    (∀ r : Reg, r ≠ 7 → t.reg r = s.reg r) ∧ t.fl = s.fl ∧ t.out = s.out ∧
    (∀ addr, addr ≠ (decrementSp s).sp.toNat → t.byteAt addr = s.byteAt addr) ∧ RecordKeptOrStopped s t ∧
    (t.sp = s.sp → ∀ addr, t.byteAt addr = s.byteAt addr)

/-- Frame of POP (42_stack.md, POP): the destination and the stack pointer may change; no byte of memory does. -/
def Obligations.PopChangesNoMemory : Prop :=
  ∀ (a : Byte) (s t : State), exec (.pop a) s = .next t →
    (∀ r : Reg, r ≠ 7 → r.val ≠ a.toNat → t.reg r = s.reg r) ∧ t.fl = s.fl ∧ t.out = s.out ∧
    (∀ addr, t.byteAt addr = s.byteAt addr) ∧ RecordKeptOrStopped s t

/-- Frame of HLT (45_halt.md): nothing but the condition record. -/
def Obligations.HltChangesOnlyTheConditionRecord : Prop :=
  ∀ s t : State, exec .hlt s = .next t →
    (∀ r : Reg, t.reg r = s.reg r) ∧ t.pc = s.pc ∧ t.fl = s.fl ∧ t.out = s.out ∧
    (∀ addr, t.byteAt addr = s.byteAt addr)

/-! ### Whole-machine rules -/

/-- Rule R92: only CMP writes FL, for instructions and for whole steps. -/
def Obligations.OnlyCmpWritesTheFlags : Prop :=
  (∀ (i : Instr) (s t : State), (∀ a b, i ≠ .cmp a b) → exec i s = .next t → t.fl = s.fl) ∧
  (∀ s t : State, step s = .next t → t.fl ≠ s.fl → ∃ a b, decode s.codeBytes = .ok (.cmp a b))

/-- FL is read by JEQ and JNE alone, and of it only bit 0 (10_state.md section 3; that G and L are never read is a
derivation of the spec): with another FL every other instruction does the same and leaves the other FL, and CMP
overwrites it. -/
def Obligations.FlagsAreReadOnlyByTheConditionalJumps : Prop :=
  (∀ (i : Instr) (s t : State) (v : Byte), (∀ a, i ≠ .jeq a) → (∀ a, i ≠ .jne a) → (∀ a b, i ≠ .cmp a b) →
    exec i s = .next t → exec i (s.setFl v) = .next (t.setFl v)) ∧
  (∀ (a : Byte) (s t : State) (v : Byte), v.getLsbD 0 = s.fl.getLsbD 0 → ∀ i ∈ [Instr.jeq a, .jne a],
    exec i s = .next t → exec i (s.setFl v) = .next (t.setFl v)) ∧
  (∀ (ra rb : Reg) (s : State) (v : Byte),
    exec (.cmp (regByte ra) (regByte rb)) (s.setFl v) = exec (.cmp (regByte ra) (regByte rb)) s)

/-- The table of registers read and written (10_state.md section 1). A register not in the write column keeps its value.
A register not in the read column has no influence: with any other value in it the instruction does the same, and
leaves that value there unless it writes the register. -/
def Obligations.RegistersReadAndWrittenFollowTheTable : Prop :=
  (∀ (i : Instr) (s t : State), exec i s = .next t → ∀ r : Reg, r.val ∉ writtenRegs i → t.reg r = s.reg r) ∧
  (∀ (i : Instr) (s t : State) (r : Reg) (v : Byte), i.wf = true → r.val ∉ readRegs s i → exec i s = .next t →
    exec i (s.setReg r v) = .next (if r.val ∈ writtenRegs i then t else t.setReg r v))

/-- Rule R16: what `pc` is after each instruction, and that it stays at a HLT, an unrecognized opcode and any fault. -/
def Obligations.ProgramCounterFollowsTheTable : Prop :=
  ∀ s t : State, s.rs = .running → step s = .next t →
    (t.rs = .running → ∃ i, decode s.codeBytes = .ok i ∧ t.pc = pcAfter s t i) ∧
    (t.rs ≠ .running → t.pc = s.pc)

/-- Rule R28: the memory's contract. A read changes nothing and returns what was last put in the cell by a write, a
load or reset; a write changes its cell and no other, and no other state. -/
def Obligations.MemoryReadsReturnTheLatestWrite : Prop :=
  (∀ (s : State) (a : Nat), a ≤ 255 → memRead s a = .ok (s.byteAt a)) ∧
  (∀ (s : State) (a : Nat) (v : Byte), a ≤ 255 → ∃ t, memWrite s a v = .ok t ∧ t = { s with mem := t.mem } ∧
    memRead t a = .ok v ∧ ∀ b, b ≠ a → memRead t b = memRead s b) ∧
  (∀ (bytes : List Byte) (s t : State), load bytes s = .ok t → ∀ a, a ≤ 255 →
    memRead t a = if h : a < bytes.length then .ok bytes[a] else memRead s a) ∧
  (∀ a, a ≤ 255 → memRead State.reset a = .ok 0)

/-- An address over 255 raises AddressRange with the address, and nothing is read or written (20_memory.md section 2;
decision D4). -/
def Obligations.AddressesOver255RaiseAddressRange : Prop :=
  ∀ (s : State) (a : Nat) (v : Byte), 255 < a →
    memRead s a = .error (.addressRange a) ∧ memWrite s a v = .error (.addressRange a) ∧
    complete s (memWrite s a v) = .next { s with rs := .faulted, cause := .addressRange, info := a }

/-- The data accesses (20_memory.md section 1): no instruction but POP reads data memory, POP reads the one cell
`x[7]`, and no instruction but PUSH and CALL changes memory. -/
def Obligations.DataMemoryIsReadOnlyByPop : Prop :=
  (∀ (i : Instr) (s t : State) (m : Memory), (∀ a, i ≠ .pop a) → exec i s = .next t →
    ∃ u, exec i { s with mem := m } = .next u ∧ u = { t with mem := u.mem }) ∧
  (∀ (a : Byte) (s t : State) (m : Memory), m.get s.sp.toNat = s.byteAt s.sp.toNat → exec (.pop a) s = .next t →
    exec (.pop a) { s with mem := m } = .next { t with mem := m }) ∧
  (∀ (i : Instr) (s t : State), (∀ a, i ≠ .push a) → (∀ a, i ≠ .call a) → exec i s = .next t → t.mem = s.mem)

/-- Two memories in canonical form that read alike everywhere are the same data (the model's own representation,
log entry 6; 20_memory.md section 1). -/
def Obligations.EqualReadsMeanEqualMemory : Prop :=
  ∀ m m' : Memory, m.wf → m'.wf → (∀ a, m.get a = m'.get a) → m = m'

/-- A stored byte is what the very next fetch reads, as opcode or as operand (20_memory.md section 5, a derivation of
the spec). -/
def Obligations.StoredByteIsSeenByTheNextFetch : Prop :=
  ∀ (s t : State) (a : Nat) (v : Byte) (f : Fetched), memWrite s a v = .ok t → fetch t = .ok f →
    (t.pc.toNat = a → f.op = v) ∧ (t.pc.toNat + 1 = a → 1 ≤ operandCount f.op → f.a = v) ∧
    (t.pc.toNat + 2 = a → 2 ≤ operandCount f.op → f.b = v)

/-- The output only grows: no instruction but PRN changes it, and along every run what was emitted stays, in order
(10_state.md section 4; decision D16). -/
def Obligations.OutputOnlyGrowsAndOnlyByPrn : Prop :=
  (∀ (i : Instr) (s t : State), (∀ a, i ≠ .prn a) → exec i s = .next t → t.out = s.out) ∧
  (∀ (n : Nat) (s : State), s.out <+: (runFor n s).out)

/-- The output channel is write-only for the program (10_state.md section 4; decision D16): along every run, whatever
was emitted before has no influence on anything but standing there. -/
def Obligations.OutputIsWriteOnly : Prop :=
  ∀ (n : Nat) (s : State) (earlier : List Byte),
    runFor n { s with out := earlier ++ s.out } = { runFor n s with out := earlier ++ (runFor n s).out }

/-- The program can read neither CAUSE nor INFO (10_state.md section 4): whatever stands in them, a step does the same,
and leaves them unless it ends the run, which overwrites both. -/
def Obligations.ConditionRecordIsInvisibleToTheProgram : Prop :=
  ∀ (s t : State) (c : Cause) (k : Nat), step s = .next t →
    step { s with cause := c, info := k } =
      .next { t with cause := if t.rs = .running then c else t.cause, info := if t.rs = .running then k else t.info }

/-- Every step keeps the machine's invariant: memory canonical and inside 0 to 255, `pc` at most 256, FL one of 0, 1,
2, 4, and RS, CAUSE, INFO a row of the table of conditions (10_state.md sections 2 to 4; 60_exceptions.md section 1;
decisions D3, D5, D8, D9). -/
def Obligations.EveryStepKeepsTheMachineInvariant : Prop :=
  ∀ s t : State, s.Inv → step s = .next t → t.Inv

/-- The state after reset meets the invariant (10_state.md section 6). -/
def Obligations.ResetMeetsTheMachineInvariant : Prop := State.reset.Inv

/-- A run of any image loaded after reset keeps the invariant at every point, and if it returns it ends in exactly one
of three ways: HLT, an unrecognized opcode, or a fault with cause 3 to 6 (40_execution_loop.md section 4; decisions
D8 and D9). -/
def Obligations.LoadedRunsEndInOneOfThreeWays : Prop :=
  ∀ (image : List Byte) (s : State), load image State.reset = .ok s →
    (∀ n, (runFor n s).Inv) ∧
    ∀ t, RunResult s t →
      (t.rs = .halted ∧ t.cause.code = 1) ∨ (t.rs = .halted ∧ t.cause.code = 2) ∨
      (t.rs = .faulted ∧ 3 ≤ t.cause.code ∧ t.cause.code ≤ 6)

/-- Rule R97: HLT is the one thing that raises the cause Hlt, at its own address, and it is the only normal end. -/
def Obligations.HltIsTheOnlyNormalEnd : Prop :=
  Cause.hlt.code = 1 ∧
  ∀ s t : State, s.rs = .running → step s = .next t →
    (t.NormalEnd ↔ decode s.codeBytes = .ok .hlt) ∧
    (decode s.codeBytes = .ok .hlt → t = { s with rs := .halted, cause := .hlt, info := 0 })

/-- The stack round trip (42_stack.md, round-trip law; for register 7 a derivation of the spec): PUSH then POP into the
same register restores every register, stack pointer included; into another one it copies, when neither is register 7
(log entry 10). -/
def Obligations.PushThenPopRestoresTheRegisters : Prop :=
  ∀ (r : Reg) (s t : State), exec (.push (regByte r)) s = .next t →
    (∃ u, exec (.pop (regByte r)) t = .next u ∧ u.regs = s.regs) ∧
    (∀ q : Reg, q ≠ r → r ≠ 7 → q ≠ 7 →
      ∃ u, exec (.pop (regByte q)) t = .next u ∧ u.regs = s.regs.set q (s.reg r))

/-- The return idiom POP Rt; JUMP Rt (43_control_flow.md, return from subroutine, a derivation of the spec): after a
CALL, whatever ran in between, if the stack pointer and the cell it points at are as the CALL left them, the idiom
goes on at the instruction after the CALL with the stack pointer as before it. -/
def Obligations.ReturnIdiomReturnsAfterTheCall : Prop :=
  ∀ (ra rt : Reg) (s t t' : State), rt ≠ 7 → s.pc.toNat + 2 ≤ 255 → exec (.call (regByte ra)) s = .next t →
    t'.sp = t.sp → t'.byteAt t.sp.toNat = t.byteAt t.sp.toNat →
    ∃ u v, exec (.pop (regByte rt)) t' = .next u ∧ exec (.jump (regByte rt)) u = .next v ∧
      v.pc = s.pc + 2 ∧ v.sp = s.sp

/-- There is no step budget (40_execution_loop.md section 4; decision D21): a JUMP to its own address steps for ever
in the same state, and no run from it returns. -/
def Obligations.JumpToItselfRunsForever : Prop :=
  ∀ (r : Reg) (s : State), s.rs = .running → s.pc.toNat ≤ 254 → s.byteAt s.pc.toNat = 0x54 →
    s.byteAt (s.pc.toNat + 1) = regByte r → (s.reg r).toNat = s.pc.toNat →
    step s = .next s ∧ (∀ n, runFor n s = s) ∧ ∀ t, ¬ RunResult s t

/-- Loading (70_reset_and_hazards.md section 3; the refusal of a longer image is decision D17). -/
def Obligations.LoadPlacesTheImageFromAddressZero : Prop :=
  ∀ (bytes : List Byte) (s : State),
    (bytes.length ≤ 256 → ∃ t, load bytes s = .ok t ∧ t = { s with mem := t.mem } ∧
      ∀ a, t.byteAt a = bytes.getD a (s.byteAt a)) ∧
    (256 < bytes.length → load bytes s = .error (.imageTooLong bytes.length))

/-- Running and reading back (70_reset_and_hazards.md section 3): a machine that is not RUNNING returns at once; a step
of a RUNNING machine does not change what its run returns; a run returns at most one state, which can then be read
back; while RUNNING nothing can be read back. -/
def Obligations.RunReturnsTheOneStoppedState : Prop :=
  (∀ s : State, s.rs ≠ .running → (∀ n, runFor n s = s) ∧ RunResult s s) ∧
  (∀ s u t : State, step s = .next u → (RunResult s t ↔ RunResult u t)) ∧
  (∀ s t t' : State, RunResult s t → RunResult s t' → t = t') ∧
  (∀ s t : State, RunResult s t → readBack t = some t) ∧
  (∀ s : State, s.rs = .running → readBack s = none)
end

