-- ==== Sys2Proof/Laws/Decode.lean ====
section
/-! SUPPORT. The opcode map, the lookup and the encoder. -/

namespace Sys2Proof

theorem Mnemonic.mem_all (m : Mnemonic) : m ∈ Mnemonic.all := by
  cases m <;> decide

theorem operandCount_le_three (op : Byte) : operandCount op ≤ 3 := by
  have h : ((op &&& 0b11000000) >>> 6).toNat < 4 := by
    rw [BitVec.toNat_ushiftRight, Nat.shiftRight_eq_div_pow]
    have := (op &&& 0b11000000).isLt
    omega
  unfold operandCount
  omega

/-- What the lookup finds carries the byte looked up. -/
theorem lookup_some {om : OpcodeMap} {op : Byte} {m : Mnemonic} (h : lookup om op = some m) : om m = op := by
  simpa using List.find?_some h

/-- The lookup fails exactly when no mnemonic has the byte. -/
theorem lookup_none {om : OpcodeMap} {op : Byte} : lookup om op = none ↔ ∀ m, om m ≠ op := by
  unfold lookup
  rw [List.find?_eq_none]
  exact ⟨fun h m => by simpa using h m (Mnemonic.mem_all m), fun h m _ => by simpa using h m⟩

/-- Under a map with distinct values the lookup inverts the map. -/
theorem lookup_of_valid {om : OpcodeMap} (h : om.Valid) (m : Mnemonic) : lookup om (om m) = some m := by
  cases hl : lookup om (om m) with
  | none => exact absurd rfl (lookup_none.1 hl m)
  | some m' => rw [h.1 m' (Mnemonic.mem_all m') m (Mnemonic.mem_all m) (lookup_some hl)]

theorem operandCount_of_valid {om : OpcodeMap} (h : om.Valid) (m : Mnemonic) :
    operandCount (om m) = m.format.operandCount :=
  h.2.1 m (Mnemonic.mem_all m)

theorem opcodeMap_valid : opcodeMap.Valid := by
  refine ⟨?_, ?_, ?_⟩ <;> decide

theorem Instr.operands_length (i : Instr) : i.operands.length = i.mnemonic.format.operandCount := by
  cases i <;> rfl

@[simp] theorem makeInstr_mnemonic (m : Mnemonic) (a b : Byte) : (makeInstr m a b).mnemonic = m := by
  cases m <;> rfl

end Sys2Proof
end

