-- ==== Sys2Proof/Laws/Memory.lean ====
section
/-! SUPPORT. Memory: reading after writing, and the canonical form under every memory operation. -/

namespace Sys2Proof.Machine.Memory

theorem get_cons (c : Host.Cell) (rest : Memory) (b : Nat) :
    Memory.get (c :: rest) b = if c.1 = b then c.2 else rest.get b := rfl

theorem get_erase (m : Memory) (a b : Nat) : (m.erase a).get b = if b = a then 0 else m.get b := by
  induction m with
  | nil => simp [erase, get]
  | cons c rest ih =>
    unfold erase at ih ⊢
    by_cases hk : c.1 = a
    · rw [List.filter_cons_of_neg (by simpa using hk), ih, get_cons]
      split_ifs <;> first | rfl | omega
    · rw [List.filter_cons_of_pos (by simpa using hk), get_cons, get_cons, ih]
      split_ifs <;> first | rfl | omega

theorem get_insert (m : Memory) (a b : Nat) (v : Byte) :
    (m.insert a v).get b = if b = a then v else m.get b := by
  induction m with
  | nil => simp only [insert, get_cons, get, eq_comm]
  | cons c rest ih =>
    simp only [insert, get_cons]
    split
    · rw [get_cons, get_cons]
      split_ifs <;> first | rfl | omega
    · split <;> rw [get_cons]
      · split_ifs <;> first | rfl | omega
      · rw [ih]
        split_ifs <;> first | rfl | omega

/-- A read after a write: the byte written at that address, every other address as before. -/
theorem get_set (m : Memory) (a b : Nat) (v : Byte) :
    (m.set a v).get b = if b = a then v else m.get b := by
  unfold set
  split
  · next h => rw [get_erase, h]
  · exact get_insert m a b v

@[simp] theorem get_set_self (m : Memory) (a : Nat) (v : Byte) : (m.set a v).get a = v := by
  simp [get_set]

theorem get_set_of_ne (m : Memory) {a b : Nat} (v : Byte) (h : b ≠ a) : (m.set a v).get b = m.get b := by
  simp [get_set, h]

theorem mem_insert {m : Memory} {a : Nat} {v : Byte} {c : Host.Cell} (h : c ∈ m.insert a v) :
    c = (a, v) ∨ c ∈ m := by
  induction m with
  | nil => simpa [insert] using h
  | cons d rest ih =>
    obtain ⟨k, w⟩ := d
    unfold insert at h
    split at h
    · simpa using h
    · split at h
      · rcases List.mem_cons.1 h with h | h
        · exact .inl h
        · exact .inr (List.mem_cons_of_mem _ h)
      · rcases List.mem_cons.1 h with h | h
        · exact .inr (h ▸ List.mem_cons_self)
        · exact (ih h).imp id (List.mem_cons_of_mem _)

theorem wf_nil : Memory.wf [] := by decide

theorem wf_erase {m : Memory} (h : m.wf) (a : Nat) : (m.erase a).wf :=
  ⟨h.1.filter _, fun c hc => h.2 c (List.mem_filter.1 hc).1⟩

theorem wf_insert {m : Memory} (h : m.wf) {a : Nat} {v : Byte} (ha : a < Config.memSize) (hv : v ≠ 0) :
    (m.insert a v).wf := by
  refine ⟨?_, fun c hc => ?_⟩
  · have h1 := h.1
    clear h
    induction m with
    | nil => simp [insert]
    | cons d rest ih =>
      obtain ⟨k, w⟩ := d
      obtain ⟨hk, hrest⟩ := List.pairwise_cons.1 h1
      unfold insert
      split
      · next hlt =>
        refine List.pairwise_cons.2 ⟨fun c hc => ?_, h1⟩
        rcases List.mem_cons.1 hc with rfl | hc
        · exact hlt
        · exact lt_trans hlt (hk c hc)
      · split
        · next heq => exact List.pairwise_cons.2 ⟨fun c hc => heq ▸ hk c hc, hrest⟩
        · refine List.pairwise_cons.2 ⟨fun c hc => ?_, ih hrest⟩
          rcases mem_insert hc with rfl | hc
          · dsimp only; omega
          · exact hk c hc
  · rcases mem_insert hc with rfl | hc
    · exact ⟨ha, hv⟩
    · exact h.2 c hc

/-- A write inside the address space keeps the canonical form. -/
theorem wf_set {m : Memory} (h : m.wf) {a : Nat} (ha : a < Config.memSize) (v : Byte) : (m.set a v).wf := by
  unfold set
  split
  · exact wf_erase h a
  · next hv => exact wf_insert h ha hv

/-- Placing bytes keeps the canonical form, wherever they are placed. -/
theorem wf_place {m : Memory} (h : m.wf) (a : Nat) (bs : List Byte) : (m.place a bs).wf := by
  induction bs generalizing m a with
  | nil => exact h
  | cons b bs ih =>
    unfold place
    split
    · next ha => exact ih (wf_set h ha b) (a + 1)
    · exact ih h (a + 1)

/-- A cell below the place where bytes are put keeps its byte. -/
theorem get_place_below (m : Memory) {a b : Nat} (bs : List Byte) (h : b < a) : (m.place a bs).get b = m.get b := by
  induction bs generalizing m a with
  | nil => rfl
  | cons c bs ih =>
    unfold place
    rw [ih _ (Nat.lt_succ_of_lt h)]
    split
    · exact get_set_of_ne m c (Nat.ne_of_lt h)
    · rfl

end Sys2Proof.Machine.Memory
end

