-- ==== Sys2Proof/Laws/State.lean ====
section
/-! SUPPORT. What each update of State leaves in each field, each true by rfl. -/

namespace Sys2Proof.Machine

variable (s : State) (r : Reg) (v : Byte) (n : PcWord) (c : Condition)

@[simp] theorem State.setReg_regs : (s.setReg r v).regs = s.regs.set r v := rfl
@[simp] theorem State.setReg_pc : (s.setReg r v).pc = s.pc := rfl
@[simp] theorem State.setReg_fl : (s.setReg r v).fl = s.fl := rfl
@[simp] theorem State.setReg_mem : (s.setReg r v).mem = s.mem := rfl
@[simp] theorem State.setReg_rs : (s.setReg r v).rs = s.rs := rfl
@[simp] theorem State.setReg_cause : (s.setReg r v).cause = s.cause := rfl
@[simp] theorem State.setReg_info : (s.setReg r v).info = s.info := rfl
@[simp] theorem State.setReg_out : (s.setReg r v).out = s.out := rfl

@[simp] theorem State.setSp_regs : (s.setSp v).regs = s.regs.set 7 v := rfl
@[simp] theorem State.setSp_pc : (s.setSp v).pc = s.pc := rfl
@[simp] theorem State.setSp_fl : (s.setSp v).fl = s.fl := rfl
@[simp] theorem State.setSp_mem : (s.setSp v).mem = s.mem := rfl
@[simp] theorem State.setSp_rs : (s.setSp v).rs = s.rs := rfl
@[simp] theorem State.setSp_cause : (s.setSp v).cause = s.cause := rfl
@[simp] theorem State.setSp_info : (s.setSp v).info = s.info := rfl
@[simp] theorem State.setSp_out : (s.setSp v).out = s.out := rfl

@[simp] theorem State.jumpTo_regs : (s.jumpTo v).regs = s.regs := rfl
@[simp] theorem State.jumpTo_pc : (s.jumpTo v).pc = v.setWidth 9 := rfl
@[simp] theorem State.jumpTo_fl : (s.jumpTo v).fl = s.fl := rfl
@[simp] theorem State.jumpTo_mem : (s.jumpTo v).mem = s.mem := rfl
@[simp] theorem State.jumpTo_rs : (s.jumpTo v).rs = s.rs := rfl
@[simp] theorem State.jumpTo_cause : (s.jumpTo v).cause = s.cause := rfl
@[simp] theorem State.jumpTo_info : (s.jumpTo v).info = s.info := rfl
@[simp] theorem State.jumpTo_out : (s.jumpTo v).out = s.out := rfl

@[simp] theorem State.advance_regs : (s.advance n).regs = s.regs := rfl
@[simp] theorem State.advance_pc : (s.advance n).pc = s.pc + n := rfl
@[simp] theorem State.advance_fl : (s.advance n).fl = s.fl := rfl
@[simp] theorem State.advance_mem : (s.advance n).mem = s.mem := rfl
@[simp] theorem State.advance_rs : (s.advance n).rs = s.rs := rfl
@[simp] theorem State.advance_cause : (s.advance n).cause = s.cause := rfl
@[simp] theorem State.advance_info : (s.advance n).info = s.info := rfl
@[simp] theorem State.advance_out : (s.advance n).out = s.out := rfl

@[simp] theorem State.setFl_regs : (s.setFl v).regs = s.regs := rfl
@[simp] theorem State.setFl_pc : (s.setFl v).pc = s.pc := rfl
@[simp] theorem State.setFl_fl : (s.setFl v).fl = v := rfl
@[simp] theorem State.setFl_mem : (s.setFl v).mem = s.mem := rfl
@[simp] theorem State.setFl_rs : (s.setFl v).rs = s.rs := rfl
@[simp] theorem State.setFl_cause : (s.setFl v).cause = s.cause := rfl
@[simp] theorem State.setFl_info : (s.setFl v).info = s.info := rfl
@[simp] theorem State.setFl_out : (s.setFl v).out = s.out := rfl

@[simp] theorem State.emit_regs : (s.emit v).regs = s.regs := rfl
@[simp] theorem State.emit_pc : (s.emit v).pc = s.pc := rfl
@[simp] theorem State.emit_fl : (s.emit v).fl = s.fl := rfl
@[simp] theorem State.emit_mem : (s.emit v).mem = s.mem := rfl
@[simp] theorem State.emit_rs : (s.emit v).rs = s.rs := rfl
@[simp] theorem State.emit_cause : (s.emit v).cause = s.cause := rfl
@[simp] theorem State.emit_info : (s.emit v).info = s.info := rfl
@[simp] theorem State.emit_out : (s.emit v).out = s.out ++ [v] := rfl

@[simp] theorem State.stop_regs : (s.stop c).regs = s.regs := rfl
@[simp] theorem State.stop_pc : (s.stop c).pc = s.pc := rfl
@[simp] theorem State.stop_fl : (s.stop c).fl = s.fl := rfl
@[simp] theorem State.stop_mem : (s.stop c).mem = s.mem := rfl
@[simp] theorem State.stop_rs : (s.stop c).rs = c.runState := rfl
@[simp] theorem State.stop_cause : (s.stop c).cause = c.cause := rfl
@[simp] theorem State.stop_info : (s.stop c).info = c.info := rfl
@[simp] theorem State.stop_out : (s.stop c).out = s.out := rfl

/-! The register file: a read after a write. -/

@[simp] theorem Regs.get_set_self (f : Regs) : (f.set r v).get r = v := by
  fin_cases r <;> rfl

theorem Regs.get_set_of_ne (f : Regs) {q : Reg} (h : q ≠ r) : (f.set r v).get q = f.get q := by
  fin_cases r <;> fin_cases q <;> first | rfl | exact absurd rfl h

@[simp] theorem Regs.set_set_self (f : Regs) (w : Byte) : (f.set r v).set r w = f.set r w := by
  fin_cases r <;> rfl

theorem Regs.set_comm (f : Regs) {q : Reg} (w : Byte) (h : q ≠ r) :
    (f.set r v).set q w = (f.set q w).set r v := by
  fin_cases r <;> fin_cases q <;> first | rfl | exact absurd rfl h

@[simp] theorem Regs.set_get_self (f : Regs) : f.set r (f.get r) = f := by
  fin_cases r <;> rfl

/-- Two register files that read alike are equal. -/
theorem Regs.ext_get {f g : Regs} (h : ∀ q : Reg, f.get q = g.get q) : f = g := by
  cases f; cases g
  simpa [Regs.get] using
    And.intro (h 0) ⟨h 1, h 2, h 3, h 4, h 5, h 6, h 7⟩

@[simp] theorem State.reg_setReg_self : (s.setReg r v).reg r = v := Regs.get_set_self r v s.regs

theorem State.reg_setReg_of_ne {q : Reg} (h : q ≠ r) : (s.setReg r v).reg q = s.reg q :=
  Regs.get_set_of_ne r v s.regs h

@[simp] theorem State.reg_advance (q : Reg) : (s.advance n).reg q = s.reg q := rfl
@[simp] theorem State.reg_jumpTo (q : Reg) : (s.jumpTo v).reg q = s.reg q := rfl
@[simp] theorem State.reg_setFl (q : Reg) : (s.setFl v).reg q = s.reg q := rfl
@[simp] theorem State.reg_emit (q : Reg) : (s.emit v).reg q = s.reg q := rfl
@[simp] theorem State.reg_stop (q : Reg) : (s.stop c).reg q = s.reg q := rfl
@[simp] theorem State.sp_setSp : (s.setSp v).sp = v := State.reg_setReg_self s 7 v

end Sys2Proof.Machine
end

