-- ==== Sys2Proof/Laws/Operands.lean ====
section
/-! SUPPORT. One lemma per shared operation of the handlers: the register-operand check, the end of a handler, the
memory accesses and the two halves of a push. -/

namespace Sys2Proof.Machine

@[simp] theorem regByte_toNat (r : Reg) : (regByte r).toNat = r.val := by
  fin_cases r <;> rfl

@[simp] theorem regOperand_regByte (r : Reg) : regOperand (regByte r) = .ok r := by
  fin_cases r <;> rfl

theorem regOperand_of_gt {b : Byte} (h : 7 < b.toNat) : regOperand b = .error (.registerIndex b) := by
  unfold regOperand
  rw [dif_neg (by omega)]

/-- An operand byte either names a register or raises `RegisterIndex`. -/
theorem regOperand_cases (b : Byte) :
    (∃ r : Reg, b = regByte r ∧ regOperand b = .ok r) ∨
      (7 < b.toNat ∧ regOperand b = .error (.registerIndex b)) := by
  by_cases h : b.toNat < 8
  · refine .inl ⟨⟨b.toNat, h⟩, ?_, by unfold regOperand; rw [dif_pos h]⟩
    apply BitVec.eq_of_toNat_eq
    simp
  · exact .inr ⟨by omega, regOperand_of_gt (by omega)⟩

/-- Every end of a handler is a next state: its result, or the condition entered from the starting state. -/
theorem complete_cases (s : State) (r : Except Condition State) :
    (∃ t, r = .ok t ∧ complete s r = .next t) ∨ (∃ c, r = .error c ∧ complete s r = .next (s.stop c)) := by
  cases r with
  | ok t => exact .inl ⟨t, rfl, rfl⟩
  | error c => exact .inr ⟨c, rfl, rfl⟩

@[simp] theorem withReg_regByte (r : Reg) (s : State) (h : Reg → Except Condition State) :
    withReg (regByte r) s h = complete s (h r) := by
  simp [withReg]

theorem withReg_of_gt {a : Byte} (ha : 7 < a.toNat) (s : State) (h : Reg → Except Condition State) :
    withReg a s h = .next (s.stop (.registerIndex a)) := by
  simp [withReg, regOperand_of_gt ha, complete]

@[simp] theorem withRegs_regByte (r q : Reg) (s : State) (h : Reg → Reg → Except Condition State) :
    withRegs (regByte r) (regByte q) s h = complete s (h r q) := by
  simp [withRegs]

theorem withRegs_of_gt_left {a : Byte} (ha : 7 < a.toNat) (b : Byte) (s : State)
    (h : Reg → Reg → Except Condition State) :
    withRegs a b s h = .next (s.stop (.registerIndex a)) :=
  withReg_of_gt ha s _

theorem withRegs_of_gt_right (r : Reg) {b : Byte} (hb : 7 < b.toNat) (s : State)
    (h : Reg → Reg → Except Condition State) :
    withRegs (regByte r) b s h = .next (s.stop (.registerIndex b)) := by
  simp [withRegs, regOperand_of_gt hb, complete]

/-- What a one-operand instruction can do: run its handler on a register, or raise `RegisterIndex`. -/
theorem withReg_cases (a : Byte) (s : State) (h : Reg → Except Condition State) :
    (∃ r : Reg, a = regByte r ∧ withReg a s h = complete s (h r)) ∨
      (7 < a.toNat ∧ withReg a s h = .next (s.stop (.registerIndex a))) := by
  rcases regOperand_cases a with ⟨r, rfl, _⟩ | ⟨ha, _⟩
  · exact .inl ⟨r, rfl, withReg_regByte r s h⟩
  · exact .inr ⟨ha, withReg_of_gt ha s h⟩

/-- What a two-operand instruction can do: run its handler on two registers, or raise `RegisterIndex` for `a`,
or for `b` when `a` names a register. -/
theorem withRegs_cases (a b : Byte) (s : State) (h : Reg → Reg → Except Condition State) :
    (∃ r q : Reg, a = regByte r ∧ b = regByte q ∧ withRegs a b s h = complete s (h r q)) ∨
      (7 < a.toNat ∧ withRegs a b s h = .next (s.stop (.registerIndex a))) ∨
      (∃ r : Reg, a = regByte r ∧ 7 < b.toNat ∧ withRegs a b s h = .next (s.stop (.registerIndex b))) := by
  rcases regOperand_cases a with ⟨r, rfl, _⟩ | ⟨ha, _⟩
  · rcases regOperand_cases b with ⟨q, rfl, _⟩ | ⟨hb, _⟩
    · exact .inl ⟨r, q, rfl, rfl, withRegs_regByte r q s h⟩
    · exact .inr (.inr ⟨r, rfl, hb, withRegs_of_gt_right r hb s h⟩)
  · exact .inr (.inl ⟨ha, withRegs_of_gt_left ha b s h⟩)

theorem memRead_of_lt {a : Nat} (s : State) (h : a < Config.memSize) : memRead s a = .ok (s.byteAt a) := by
  simp [memRead, h]

theorem memRead_of_ge {a : Nat} (s : State) (h : Config.memSize ≤ a) : memRead s a = .error (.addressRange a) := by
  simp [memRead, Nat.not_lt.2 h]

theorem memWrite_of_lt {a : Nat} (s : State) (v : Byte) (h : a < Config.memSize) :
    memWrite s a v = .ok { s with mem := s.mem.set a v } := by
  simp [memWrite, h]

theorem memWrite_of_ge {a : Nat} (s : State) (v : Byte) (h : Config.memSize ≤ a) :
    memWrite s a v = .error (.addressRange a) := by
  simp [memWrite, Nat.not_lt.2 h]

theorem byte_lt_memSize (b : Byte) : b.toNat < Config.memSize := b.isLt

/-- A stack read never raises (42_stack.md rule R69). -/
@[simp] theorem memRead_byte (s : State) (b : Byte) : memRead s b.toNat = .ok (s.byteAt b.toNat) :=
  memRead_of_lt s (byte_lt_memSize b)

/-- A stack write never raises (42_stack.md rule R69). -/
@[simp] theorem storeTop_eq (s : State) (v : Byte) :
    storeTop s v = .ok { s with mem := s.mem.set s.sp.toNat v } :=
  memWrite_of_lt s v (byte_lt_memSize s.sp)

@[simp] theorem decrementSp_sp (s : State) : (decrementSp s).sp = s.sp - 1 := State.sp_setSp s _

end Sys2Proof.Machine
end

