-- ==== Sys2Proof/Laws/Exec.lean ====
section
/-! SUPPORT. Each instruction on register operands as the end of its handler, and what an execution can be. -/

namespace Sys2Proof.Machine

variable (r q : Reg) (imm : Byte) (s : State)

theorem exec_hlt : exec .hlt s = .next (s.stop .hlt) := rfl

theorem exec_ldi : exec (.ldi (regByte r) imm) s = .next ((s.setReg r imm).advance 3) :=
  withReg_regByte r s _

theorem exec_prn : exec (.prn (regByte r)) s = .next ((s.emit (s.reg r)).advance 2) :=
  withReg_regByte r s _

theorem exec_push : exec (.push (regByte r)) s =
    .next (({ decrementSp s with mem := s.mem.set (s.sp - 1).toNat ((decrementSp s).reg r) }).advance 2) := by
  simp only [exec, execPush, withReg_regByte, storeTop_eq, decrementSp_sp, complete, bind, Except.bind]
  rfl

theorem exec_pop : exec (.pop (regByte r)) s =
    .next (((s.setReg r (s.byteAt s.sp.toNat)).setSp ((s.setReg r (s.byteAt s.sp.toNat)).sp + 1)).advance 2) := by
  simp only [exec, execPop, withReg_regByte, memRead_byte, complete, bind, Except.bind]

theorem exec_call_of_le (h : s.pc.toNat + 2 ≤ 255) : exec (.call (regByte r)) s =
    .next (({ decrementSp s with mem := s.mem.set (s.sp - 1).toNat (BitVec.ofNat 8 (s.pc.toNat + 2)) }).jumpTo
      ((decrementSp s).reg r)) := by
  simp only [exec, execCall, withReg_regByte, storeTop_eq, decrementSp_sp, complete, bind, Except.bind,
    if_neg (Nat.not_lt.2 h)]
  rfl

theorem exec_call_of_gt (h : 255 < s.pc.toNat + 2) : exec (.call (regByte r)) s =
    .next (s.stop (.returnAddressRange (s.pc.toNat + 2))) := by
  simp only [exec, execCall, withReg_regByte, if_pos h, complete]

theorem exec_jump : exec (.jump (regByte r)) s = .next (s.jumpTo (s.reg r)) :=
  withReg_regByte r s _

theorem exec_jeq : exec (.jeq (regByte r)) s = .next (jumpIf s.flagE r s) :=
  withReg_regByte r s _

theorem exec_jne : exec (.jne (regByte r)) s = .next (jumpIf (!s.flagE) r s) :=
  withReg_regByte r s _

theorem exec_add : exec (.add (regByte r) (regByte q)) s = .next (aluWrite (fun x y => x + y) s r q) :=
  withRegs_regByte r q s _

theorem exec_mul : exec (.mul (regByte r) (regByte q)) s = .next (aluWrite (fun x y => x * y) s r q) :=
  withRegs_regByte r q s _

theorem exec_cmp : exec (.cmp (regByte r) (regByte q)) s =
    .next ((s.setFl (compareFlags (s.reg r) (s.reg q))).advance 3) :=
  withRegs_regByte r q s _

theorem exec_and : exec (.and (regByte r) (regByte q)) s = .next (aluWrite (fun x y => x &&& y) s r q) :=
  withRegs_regByte r q s _

theorem exec_or : exec (.or (regByte r) (regByte q)) s = .next (aluWrite (fun x y => x ||| y) s r q) :=
  withRegs_regByte r q s _

theorem exec_xor : exec (.xor (regByte r) (regByte q)) s = .next (aluWrite (fun x y => x ^^^ y) s r q) :=
  withRegs_regByte r q s _

theorem exec_not : exec (.not (regByte r) (regByte q)) s = .next (aluWrite (fun _ y => ~~~y) s r q) :=
  withRegs_regByte r q s _

theorem exec_shl : exec (.shl (regByte r) (regByte q)) s = .next (aluWrite shiftLeft s r q) :=
  withRegs_regByte r q s _

theorem exec_shr : exec (.shr (regByte r) (regByte q)) s = .next (aluWrite shiftRight s r q) :=
  withRegs_regByte r q s _

theorem exec_mod_of_ne (h : s.reg q ≠ 0) :
    exec (.mod (regByte r) (regByte q)) s = .next (aluWrite (fun x y => x % y) s r q) := by
  simp only [exec, execMod, withRegs_regByte, if_neg h, complete]

theorem exec_mod_of_eq (h : s.reg q = 0) :
    exec (.mod (regByte r) (regByte q)) s = .next (s.stop .modByZero) := by
  simp only [exec, execMod, withRegs_regByte, if_pos h, complete]

/-- Every execution is the end of some handler: it answers a next state, and where the handler raised a condition
the starting state with that condition entered. -/
theorem exec_eq_complete (i : Instr) : ∃ h : Except Condition State, exec i s = complete s h := by
  have one (a : Byte) (h : Reg → Except Condition State) : ∃ h', withReg a s h = complete s h' := by
    unfold withReg
    split
    · next c _ => exact ⟨.error c, rfl⟩
    · next ra _ => exact ⟨h ra, rfl⟩
  cases i with
  | hlt => exact ⟨.error .hlt, rfl⟩
  | _ => exact one _ _

/-- What an execution answers. -/
theorem exec_cases {i : Instr} {t : State} (h : exec i s = .next t) :
    (exec i s = complete s (.ok t)) ∨ ∃ c, t = s.stop c ∧ exec i s = complete s (.error c) := by
  obtain ⟨r, hr⟩ := exec_eq_complete s i
  rcases complete_cases s r with ⟨u, rfl, _⟩ | ⟨c, rfl, _⟩
  · exact .inl h
  · refine .inr ⟨c, ?_, hr⟩
    rw [hr] at h
    exact (Host.Outcome.next.inj h).symm

/-- The instructions whose register operands all name registers, form by form. -/
inductive OnRegisters : Instr → Prop where
  | hlt : OnRegisters .hlt
  | push (r : Reg) : OnRegisters (.push (regByte r))
  | pop (r : Reg) : OnRegisters (.pop (regByte r))
  | prn (r : Reg) : OnRegisters (.prn (regByte r))
  | call (r : Reg) : OnRegisters (.call (regByte r))
  | jump (r : Reg) : OnRegisters (.jump (regByte r))
  | jeq (r : Reg) : OnRegisters (.jeq (regByte r))
  | jne (r : Reg) : OnRegisters (.jne (regByte r))
  | ldi (r : Reg) (imm : Byte) : OnRegisters (.ldi (regByte r) imm)
  | add (r q : Reg) : OnRegisters (.add (regByte r) (regByte q))
  | mul (r q : Reg) : OnRegisters (.mul (regByte r) (regByte q))
  | mod (r q : Reg) : OnRegisters (.mod (regByte r) (regByte q))
  | cmp (r q : Reg) : OnRegisters (.cmp (regByte r) (regByte q))
  | and (r q : Reg) : OnRegisters (.and (regByte r) (regByte q))
  | not (r q : Reg) : OnRegisters (.not (regByte r) (regByte q))
  | or (r q : Reg) : OnRegisters (.or (regByte r) (regByte q))
  | xor (r q : Reg) : OnRegisters (.xor (regByte r) (regByte q))
  | shl (r q : Reg) : OnRegisters (.shl (regByte r) (regByte q))
  | shr (r q : Reg) : OnRegisters (.shr (regByte r) (regByte q))

/-- An instruction works on registers, or one of its operands makes it raise `RegisterIndex` in every state. -/
theorem onRegisters_or_stops (i : Instr) :
    OnRegisters i ∨ ∃ b ∈ i.regOperands, 7 < b.toNat ∧ ∀ s, exec i s = .next (s.stop (.registerIndex b)) := by
  have one (a : Byte) : (∃ r : Reg, a = regByte r) ∨
      (7 < a.toNat ∧ ∀ s h, withReg a s h = .next (s.stop (.registerIndex a))) := by
    rcases regOperand_cases a with ⟨r, h, _⟩ | ⟨h, _⟩
    · exact .inl ⟨r, h⟩
    · exact .inr ⟨h, withReg_of_gt h⟩
  have two (a b : Byte) : (∃ r q : Reg, a = regByte r ∧ b = regByte q) ∨
      ∃ c ∈ [a, b], 7 < c.toNat ∧ ∀ s h, withRegs a b s h = .next (s.stop (.registerIndex c)) := by
    rcases one a with ⟨r, rfl⟩ | ⟨h, hs⟩
    · rcases one b with ⟨q, rfl⟩ | ⟨h, _⟩
      · exact .inl ⟨r, q, rfl, rfl⟩
      · exact .inr ⟨b, by simp, h, withRegs_of_gt_right r h⟩
    · exact .inr ⟨a, by simp, h, fun s _ => hs s _⟩
  cases i with
  | hlt => exact .inl .hlt
  | push a | pop a | prn a | call a | jump a | jeq a | jne a | ldi a imm =>
    rcases one a with ⟨r, rfl⟩ | ⟨h, hs⟩
    · exact .inl (by constructor)
    · exact .inr ⟨a, List.mem_singleton_self a, h, fun s => hs s _⟩
  | add a b | mul a b | mod a b | cmp a b | and a b | not a b | or a b | xor a b | shl a b | shr a b =>
    rcases two a b with ⟨r, q, rfl, rfl⟩ | ⟨c, hc, h, hs⟩
    · exact .inl (by constructor)
    · exact .inr ⟨c, hc, h, fun s => hs s _⟩

end Sys2Proof.Machine
end

