-- ==== Sys2Proof/Laws/PerInstr.lean ====
section
/-! SUPPORT. Statements made per instruction, one lemma for each constructor. Family EncodeShape: under a valid
opcode map an instruction is as long as bits 7:6 of its opcode say, and well-formedness looks at register operands
only (30_encoding.md rules R46 to R48). -/

namespace Sys2Proof.Laws.EncodeShape

/-- The encoding is one byte longer than the operand count of its first byte, whatever valid map is used, and an
instruction is well-formed exactly when each of its register operands is at most 7. -/
def Statement (i : Instr) : Prop :=
  (∀ om : OpcodeMap, om.Valid → (encodeWith om i).length = 1 + operandCount (om i.mnemonic)) ∧
  (i.wf = true ↔ ∀ b ∈ i.regOperands, b.toNat ≤ 7)

theorem of_instr (i : Instr) : Statement i := by
  refine ⟨fun om h => ?_, ?_⟩
  · rw [operandCount_of_valid h, ← Instr.operands_length]
    simp [encodeWith, Nat.add_comm]
  · simp [Instr.wf, namesRegister]

theorem hlt : Statement .hlt := of_instr _
theorem push (a : Byte) : Statement (.push a) := of_instr _
theorem pop (a : Byte) : Statement (.pop a) := of_instr _
theorem prn (a : Byte) : Statement (.prn a) := of_instr _
theorem call (a : Byte) : Statement (.call a) := of_instr _
theorem jump (a : Byte) : Statement (.jump a) := of_instr _
theorem jeq (a : Byte) : Statement (.jeq a) := of_instr _
theorem jne (a : Byte) : Statement (.jne a) := of_instr _
theorem ldi (a imm : Byte) : Statement (.ldi a imm) := of_instr _
theorem add (a b : Byte) : Statement (.add a b) := of_instr _
theorem mul (a b : Byte) : Statement (.mul a b) := of_instr _
theorem mod (a b : Byte) : Statement (.mod a b) := of_instr _
theorem cmp (a b : Byte) : Statement (.cmp a b) := of_instr _
theorem and (a b : Byte) : Statement (.and a b) := of_instr _
theorem not (a b : Byte) : Statement (.not a b) := of_instr _
theorem or (a b : Byte) : Statement (.or a b) := of_instr _
theorem xor (a b : Byte) : Statement (.xor a b) := of_instr _
theorem shl (a b : Byte) : Statement (.shl a b) := of_instr _
theorem shr (a b : Byte) : Statement (.shr a b) := of_instr _

end Sys2Proof.Laws.EncodeShape
end

