-- ==== Sys2Proof/Laws/Step.lean ====
section
/-! SUPPORT. What a fetch and a step can do, each said once. -/

namespace Sys2Proof.Machine

variable {s t : State} {f : Fetched} {c : Condition}

theorem fetchOperands_op {op : Byte} (h : fetchOperands s op = .ok f) : f.op = op := by
  unfold fetchOperands memRead at h
  simp only [bind, Except.bind] at h
  split at h
  · cases h; rfl
  · split at h
    · cases h
    · split at h
      · cases h; rfl
      · split at h
        · cases h
        · cases h; rfl

/-- A fetch that succeeds read the opcode and the operand bytes it has from their cells, all in range. -/
theorem fetch_ok (h : fetch s = .ok f) :
    s.pc.toNat < 256 ∧ f.op = s.byteAt s.pc.toNat ∧
    (1 ≤ operandCount f.op → s.pc.toNat + 1 < 256 ∧ f.a = s.byteAt (s.pc.toNat + 1)) ∧
    (2 ≤ operandCount f.op → s.pc.toNat + 2 < 256 ∧ f.b = s.byteAt (s.pc.toNat + 2)) := by
  unfold fetch at h
  by_cases h0 : s.pc.toNat < 256
  · rw [memRead_of_lt s h0] at h
    have hop : f.op = s.byteAt s.pc.toNat := fetchOperands_op h
    rw [hop]
    refine ⟨h0, rfl, ?_⟩
    simp only [bind, Except.bind, fetchOperands] at h
    by_cases hn : operandCount (s.byteAt s.pc.toNat) = 0
    · omega
    rw [if_neg hn] at h
    by_cases h1 : s.pc.toNat + 1 < 256
    · rw [memRead_of_lt s h1] at h
      by_cases hn1 : operandCount (s.byteAt s.pc.toNat) = 1
      · simp only [if_pos hn1, Except.ok.injEq] at h
        subst h
        exact ⟨fun _ => ⟨h1, rfl⟩, fun _ => by omega⟩
      · simp only [if_neg hn1] at h
        by_cases h2 : s.pc.toNat + 2 < 256
        · simp only [memRead_of_lt s h2, Except.ok.injEq] at h
          subst h
          exact ⟨fun _ => ⟨h1, rfl⟩, fun _ => ⟨h2, rfl⟩⟩
        · simp [memRead_of_ge s (Nat.not_lt.1 h2)] at h
    · simp [memRead_of_ge s (Nat.not_lt.1 h1)] at h
  · rw [memRead_of_ge s (Nat.not_lt.1 h0)] at h
    cases h

/-- A fetch that fails met the first address over 255 among `pc`, `pc+1`, `pc+2`, as far as they are fetched. -/
theorem fetch_error (h : fetch s = .error c) :
    (255 < s.pc.toNat ∧ c = .addressRange s.pc.toNat) ∨
    (s.pc.toNat = 255 ∧ 1 ≤ operandCount (s.byteAt 255) ∧ c = .addressRange 256) ∨
    (s.pc.toNat = 254 ∧ 2 ≤ operandCount (s.byteAt 254) ∧ c = .addressRange 256) := by
  unfold fetch at h
  by_cases h0 : s.pc.toNat < 256
  · rw [memRead_of_lt s h0] at h
    simp only [bind, Except.bind, fetchOperands] at h
    by_cases hn : operandCount (s.byteAt s.pc.toNat) = 0
    · simp [hn] at h
    rw [if_neg hn] at h
    by_cases h1 : s.pc.toNat + 1 < 256
    · rw [memRead_of_lt s h1] at h
      by_cases hn1 : operandCount (s.byteAt s.pc.toNat) = 1
      · simp [hn1] at h
      · simp only [if_neg hn1] at h
        by_cases h2 : s.pc.toNat + 2 < 256
        · simp [memRead_of_lt s h2] at h
        · rw [memRead_of_ge s (Nat.not_lt.1 h2)] at h
          have hpc : s.pc.toNat = 254 := by omega
          rw [hpc] at h hn hn1
          exact .inr (.inr ⟨hpc, by omega, (Except.error.inj h).symm⟩)
    · rw [memRead_of_ge s (Nat.not_lt.1 h1)] at h
      have hpc : s.pc.toNat = 255 := by omega
      rw [hpc] at h hn
      exact .inr (.inl ⟨hpc, by omega, (Except.error.inj h).symm⟩)
  · rw [memRead_of_ge s (Nat.not_lt.1 h0)] at h
    exact .inl ⟨by omega, (Except.error.inj h).symm⟩

/-- The loop body of a RUNNING machine. -/
theorem loopBody_running (om : OpcodeMap) (hs : s.rs = .running) :
    loopBody om s =
      match fetch s with
      | .error c => .next (s.stop c)
      | .ok f =>
        match lookup om f.op with
        | none => .next (s.stop (.unrecognizedOpcode f.op))
        | some m => exec (makeInstr m f.a f.b) s := by
  unfold loopBody
  rw [hs]
  rfl

theorem loopBody_not_running (om : OpcodeMap) (hs : s.rs ≠ .running) : loopBody om s = .fault .notRunning := by
  unfold loopBody
  cases h : s.rs with
  | running => exact absurd h hs
  | halted => rfl
  | faulted => rfl

/-- What a step can do: the machine was RUNNING, and the fetch failed, or the opcode is in no row of the map, or an
instruction ran. -/
theorem loopBody_cases {om : OpcodeMap} (h : loopBody om s = .next t) :
    s.rs = .running ∧
    ((∃ c, fetch s = .error c ∧ t = s.stop c) ∨
     (∃ f, fetch s = .ok f ∧ lookup om f.op = none ∧ t = s.stop (.unrecognizedOpcode f.op)) ∨
     (∃ f m, fetch s = .ok f ∧ lookup om f.op = some m ∧ exec (makeInstr m f.a f.b) s = .next t)) := by
  by_cases hs : s.rs = .running
  · refine ⟨hs, ?_⟩
    rw [loopBody_running om hs] at h
    split at h
    · next c hf => exact .inl ⟨c, hf, (Host.Outcome.next.inj h).symm⟩
    · next f hf =>
      split at h
      · next hl => exact .inr (.inl ⟨f, hf, hl, (Host.Outcome.next.inj h).symm⟩)
      · next m hl => exact .inr (.inr ⟨f, m, hf, hl, h⟩)
  · rw [loopBody_not_running om hs] at h
    cases h

theorem codeBytes_of_le (h : s.pc.toNat ≤ 253) :
    s.codeBytes = [s.byteAt s.pc.toNat, s.byteAt (s.pc.toNat + 1), s.byteAt (s.pc.toNat + 2)] := by
  have h0 : s.pc.toNat < 256 := by omega
  have h1 : s.pc.toNat + 1 < 256 := by omega
  have h2 : s.pc.toNat + 2 < 256 := by omega
  simp [State.codeBytes, Config.memSize, h0, h1, h2]

theorem codeBytes_of_eq_254 (h : s.pc.toNat = 254) : s.codeBytes = [s.byteAt 254, s.byteAt 255] := by
  simp [State.codeBytes, Config.memSize, h]

theorem codeBytes_of_eq_255 (h : s.pc.toNat = 255) : s.codeBytes = [s.byteAt 255] := by
  simp [State.codeBytes, Config.memSize, h]

theorem codeBytes_of_gt (h : 255 < s.pc.toNat) : s.codeBytes = [] := by
  have h0 : ¬ s.pc.toNat < 256 := by omega
  have h1 : ¬ s.pc.toNat + 1 < 256 := by omega
  have h2 : ¬ s.pc.toNat + 2 < 256 := by omega
  simp [State.codeBytes, Config.memSize, h0, h1, h2]

/-- The decoder of byte lists accepts the bytes from `pc` on exactly when the fetch succeeds with an opcode in the
table, and both give the same instruction. -/
theorem decode_codeBytes {i : Instr} : decode s.codeBytes = .ok i ↔
    ∃ f m, fetch s = .ok f ∧ lookup opcodeMap f.op = some m ∧ makeInstr m f.a f.b = i := by
  have pcs (h : s.pc.toNat < 256) : s.pc.toNat ≤ 253 ∨ s.pc.toNat = 254 ∨ s.pc.toNat = 255 := by omega
  have bytes (f : Fetched) (hf : fetch s = .ok f) (m : Mnemonic) (hl : lookup opcodeMap f.op = some m) :
      decode s.codeBytes = .ok (makeInstr m f.a f.b) := by
    obtain ⟨h0, ho, ha, hb⟩ := fetch_ok hf
    have hcnt := operandCount_of_valid opcodeMap_valid m
    rw [lookup_some hl] at hcnt
    rcases pcs h0 with h | h | h
    · rw [codeBytes_of_le h]
      rw [ho] at hl
      simp only [decode, decodeWith, hl]
      cases m <;> simp [Mnemonic.format, Format.operandCount] at hcnt <;> simp [hcnt] at ha hb <;>
        simp [Mnemonic.format, Format.operandCount, makeInstr, ha, hb]
    · rw [codeBytes_of_eq_254 h]
      rw [ho, h] at hl
      simp only [decode, decodeWith, hl]
      cases m <;> simp [Mnemonic.format, Format.operandCount] at hcnt <;> simp [hcnt, h] at ha hb <;>
        simp [Mnemonic.format, Format.operandCount, makeInstr, ha]
    · rw [codeBytes_of_eq_255 h]
      rw [ho, h] at hl
      simp only [decode, decodeWith, hl]
      cases m <;> simp [Mnemonic.format, Format.operandCount] at hcnt <;> simp [hcnt, h] at ha hb
      simp [Mnemonic.format, Format.operandCount, makeInstr]
  refine ⟨fun h => ?_, fun ⟨f, m, hf, hl, hi⟩ => hi ▸ bytes f hf m hl⟩
  cases hf : fetch s with
  | ok f =>
    cases hl : lookup opcodeMap f.op with
    | some m => exact ⟨f, m, rfl, hl, Except.ok.inj ((bytes f hf m hl).symm.trans h)⟩
    | none =>
      obtain ⟨h0, ho, _⟩ := fetch_ok hf
      rw [ho] at hl
      exfalso
      rcases pcs h0 with hp | hp | hp
      · simp [codeBytes_of_le hp, decode, decodeWith, hl] at h
      · rw [hp] at hl; simp [codeBytes_of_eq_254 hp, decode, decodeWith, hl] at h
      · rw [hp] at hl; simp [codeBytes_of_eq_255 hp, decode, decodeWith, hl] at h
  | error c =>
    exfalso
    have short (bs : List Byte) (op : Byte) (hlen : bs.length < operandCount op) :
        decode (op :: bs) ≠ .ok i := by
      simp only [decode, decodeWith]
      cases hl : lookup opcodeMap op with
      | none => simp
      | some m =>
        have hcnt := operandCount_of_valid opcodeMap_valid m
        rw [lookup_some hl] at hcnt
        simp [← hcnt, hlen]
    rcases fetch_error hf with ⟨h1, _⟩ | ⟨h1, h2, _⟩ | ⟨h1, h2, _⟩
    · rw [codeBytes_of_gt h1] at h; cases h
    · rw [codeBytes_of_eq_255 h1] at h; exact short [] _ h2 h
    · rw [codeBytes_of_eq_254 h1] at h; exact short [_] _ h2 h

end Sys2Proof.Machine
end

