-- ==== Sys2Proof/Tests/Slice0.lean ====
section
/-! SUPPORT. Tests of the model on fixed values: the decoding of a word of each instruction, the well-formedness
checks, single steps. Every expected result is taken from spec/95_test_vectors.md (the vector is named) or read off
the encoding tables of spec/30_encoding.md. -/

namespace Sys2Proof.Tests

open Sys2Proof.Machine

/-- The reset state with `pc` at an address and bytes placed there. -/
def placed (pc : PcWord) (bytes : List Byte) : State :=
  { State.reset with pc := pc, mem := State.reset.mem.place pc.toNat bytes }

/-- The state after a step that answers one. -/
def after : Host.Outcome State Fault Refusal → Option State
  | .next t => some t
  | .fault _ => none
  | .refused _ => none

/-- Some view of the state after one step. -/
def stepped {α : Type} (s : State) (view : State → α) : Option α := (after (step s)).map view

/-- `RS`, `CAUSE`, `INFO`, `pc`. -/
def record (s : State) : RunState × Nat × Nat × Nat := (s.rs, s.cause.code, s.info, s.pc.toNat)

/-! ### Decoding: words written out bit by bit from the map of 30_encoding.md rule R50 and the formats of rule R43 -/

theorem test_decode_hlt : decode [0b00000001] = .ok .hlt := by decide
theorem test_decode_push : decode [0b01000101, 0b00000011] = .ok (.push 3) := by decide
theorem test_decode_pop : decode [0b01000110, 0b00000101] = .ok (.pop 5) := by decide
theorem test_decode_prn : decode [0b01000111, 0b00000110] = .ok (.prn 6) := by decide
theorem test_decode_call : decode [0b01010000, 0b00000001] = .ok (.call 1) := by decide
theorem test_decode_jump : decode [0b01010100, 0b00000010] = .ok (.jump 2) := by decide
theorem test_decode_jeq : decode [0b01010101, 0b00000100] = .ok (.jeq 4) := by decide
theorem test_decode_jne : decode [0b01010110, 0b00000111] = .ok (.jne 7) := by decide
theorem test_decode_ldi : decode [0b10000010, 0b00000011, 0b11000001] = .ok (.ldi 3 193) := by decide
theorem test_decode_add : decode [0b10100000, 0b00000001, 0b00000110] = .ok (.add 1 6) := by decide
theorem test_decode_mul : decode [0b10100010, 0b00000010, 0b00000101] = .ok (.mul 2 5) := by decide
theorem test_decode_mod : decode [0b10100100, 0b00000011, 0b00000100] = .ok (.mod 3 4) := by decide
theorem test_decode_cmp : decode [0b10100111, 0b00000100, 0b00000011] = .ok (.cmp 4 3) := by decide
theorem test_decode_and : decode [0b10101000, 0b00000101, 0b00000010] = .ok (.and 5 2) := by decide
theorem test_decode_not : decode [0b10101001, 0b00000110, 0b00000001] = .ok (.not 6 1) := by decide
theorem test_decode_or : decode [0b10101010, 0b00000111, 0b00000000] = .ok (.or 7 0) := by decide
theorem test_decode_xor : decode [0b10101011, 0b00000000, 0b00000111] = .ok (.xor 0 7) := by decide
theorem test_decode_shl : decode [0b10101100, 0b00000001, 0b00000010] = .ok (.shl 1 2) := by decide
theorem test_decode_shr : decode [0b10101101, 0b00000010, 0b00000001] = .ok (.shr 2 1) := by decide

/-- Bytes that are no opcode (V-F1, V-F16 to V-F18, V-F21), no bytes, and an operand byte missing. -/
theorem test_decode_refuses : decode [0x00] = .error (.unrecognizedOpcode 0x00) ∧
    decode [0x69, 0x00] = .error (.unrecognizedOpcode 0x69) ∧ decode [0x11] = .error (.unrecognizedOpcode 0x11) ∧
    decode [0xA1, 0x00, 0x01] = .error (.unrecognizedOpcode 0xA1) ∧
    decode [0xC0, 0x01, 0x02] = .error (.unrecognizedOpcode 0xC0) ∧
    decode [] = .error .empty ∧ decode [0x47] = .error (.truncated 0x47) ∧
    decode [0x82, 0x01] = .error (.truncated 0x82) := by decide

/-- A table word has its first byte in bits 7 to 0: `82 03 FF` is `LDI R3,255` (V-LDI2). -/
theorem test_decodeTableWord : decodeTableWord 24 0xFF0382 = some (.ldi 3 255) ∧
    decodeTableWord 8 0x45 = some (.push 0) ∧ decodeTableWord 8 0x01 = some .hlt ∧
    decodeTableWord 8 0x00 = none := by decide

/-- A table word placed after reset is what the first step runs. -/
theorem test_withFetchWord : stepped (State.reset.withFetchWord 24 0xFF0382) (fun t => (t.reg 3, t.pc)) = some (0xFF, 3) ∧
    stepped (State.reset.withFetchWord 8 0x01) record = some (.halted, 1, 0, 0) ∧
    State.reset.withFetchWord 8 0 = State.reset := by decide

/-- The operand count of E9 of the spec's worked examples. -/
theorem test_operandCount : operandCount 0x01 = 0 ∧ operandCount 0x47 = 1 ∧ operandCount 0x82 = 2 ∧
    operandCount 0xA0 = 2 ∧ operandCount 0xFF = 3 := by decide

/-! ### Well-formedness: one ill-formed term for each check, and the last legal value beside it -/

theorem test_wf_first_operand_of_one : ∀ mk ∈ [Instr.push, .pop, .prn, .call, .jump, .jeq, .jne],
    (mk 8).wf = false ∧ (mk 255).wf = false ∧ (mk 7).wf = true := by decide

theorem test_wf_first_operand_of_two : ∀ mk ∈ [Instr.add, .mul, .mod, .cmp, .and, .not, .or, .xor, .shl, .shr],
    (mk 8 0).wf = false ∧ (mk 255 7).wf = false ∧ (mk 7 7).wf = true := by decide

theorem test_wf_second_operand_of_two : ∀ mk ∈ [Instr.add, .mul, .mod, .cmp, .and, .not, .or, .xor, .shl, .shr],
    (mk 0 8).wf = false ∧ (mk 7 255).wf = false := by decide

/-- LDI's immediate is not checked, its register is (V-LDI5, V-LDI6); HLT has no operand. -/
theorem test_wf_ldi : Instr.wf (.ldi 8 1) = false ∧ Instr.wf (.ldi 7 255) = true ∧ Instr.wf .hlt = true := by decide

/-! ### Single steps -/

/-- V-LDI7: the last LDI that fits. -/
theorem test_ldi_at_top : stepped (placed 253 [0x82, 0x01, 0x77]) (fun t => (t.reg 1, record t)) =
    some (0x77, .running, 0, 0, 256) := by decide

/-- V-LDI8: an operand byte beyond the last cell. -/
theorem test_ldi_beyond_top : stepped (placed 254 [0x82, 0x01]) (fun t => (t.reg 1, record t)) =
    some (0x00, .faulted, 4, 256, 254) := by decide

/-- V-PRN1. -/
theorem test_prn : stepped ((placed 0 [0x47, 0x00]).setReg 0 0x48) (fun t => (t.out, record t)) =
    some ([72], .running, 0, 0, 2) := by decide

/-- V-PRN5. -/
theorem test_prn_operand_8 : stepped (placed 0 [0x47, 0x08]) (fun t => (t.out, record t)) =
    some ([], .faulted, 5, 8, 0) := by decide

/-- V-PUSH2: the stack pointer wraps. -/
theorem test_push_wraps : stepped (((placed 0 [0x45, 0x00]).setReg 0 0x11).setReg 7 0x00)
    (fun t => (t.sp, t.byteAt 0xFF, record t)) = some (0xFF, 0x11, .running, 0, 0, 2) := by decide

/-- V-PUSH3: `PUSH R7` pushes the decremented value. -/
theorem test_push_r7 : stepped (placed 0 [0x45, 0x07]) (fun t => (t.sp, t.byteAt 0xF3, t.byteAt 0xF4)) =
    some (0xF3, 0xF3, 0x00) := by decide

/-- V-POP2: the stack pointer wraps. -/
theorem test_pop_wraps : stepped { (placed 0 [0x46, 0x00]).setReg 7 0xFF with mem := [(0, 0x46), (255, 0x77)] }
    (fun t => (t.reg 0, t.sp, record t)) = some (0x77, 0x00, .running, 0, 0, 2) := by decide

/-- V-POP4: `POP R7` loads, then increments. -/
theorem test_pop_r7 : stepped { (placed 0 [0x46, 0x07]).setReg 7 0xF3 with mem := [(0, 0x46), (1, 0x07), (0xF3, 0x10)] }
    (fun t => (t.sp, t.pc)) = some (0x11, 2) := by decide

/-- V-CALL3: the largest return address. -/
theorem test_call_at_253 : stepped ((placed 253 [0x50, 0x01]).setReg 1 0x10)
    (fun t => (t.sp, t.byteAt 0xF3, record t)) = some (0xF3, 0xFF, .running, 0, 0, 16) := by decide

/-- V-CALL2: a return address beyond the last cell. -/
theorem test_call_at_254 : stepped ((placed 254 [0x50, 0x01]).setReg 1 0x10)
    (fun t => (t.sp, t.byteAt 0xF3, record t)) = some (0xF4, 0x00, .faulted, 6, 256, 254) := by decide

/-- V-J2. -/
theorem test_jump : stepped ((placed 16 [0x54, 0x00]).setReg 0 0xFF) record = some (.running, 0, 0, 255) := by decide

/-- V-JEQ1 and V-JEQ3. -/
theorem test_jeq : stepped (((placed 12 [0x55, 0x02]).setReg 2 0x12).setFl 0x01) (fun t => (t.pc, t.fl)) =
    some (18, 0x01) ∧
    stepped (((placed 12 [0x55, 0x02]).setReg 2 0x12).setFl 0x02) (fun t => (t.pc, t.fl)) = some (14, 0x02) := by decide

/-- V-JEQ7: not taken at the top of memory. -/
theorem test_jeq_at_top : stepped ((placed 254 [0x55, 0x00]).setFl 0x04) record = some (.running, 0, 0, 256) := by decide

/-- V-JNE3 and V-JNE4. -/
theorem test_jne : stepped (((placed 24 [0x56, 0x04]).setReg 4 0x0F).setFl 0x01) (fun t => t.pc) = some 26 ∧
    stepped ((placed 24 [0x56, 0x04]).setReg 4 0x0F) (fun t => t.pc) = some 15 := by decide

/-- V-JNE5: the operand is checked though the jump is not taken. -/
theorem test_jne_operand_255 : stepped ((placed 0 [0x56, 0xFF]).setFl 0x01) record = some (.faulted, 5, 255, 0) := by
  decide

/-- `op 00 01` at address 0 with `x[0]` and `x[1]` given: `x[0]`, `x[1]`, `FL`, `pc` after, the form of section 2.9
of the vectors. -/
def alu (op x y : Byte) : Option (Byte × Byte × Byte × PcWord) :=
  stepped (((placed 0 [op, 0x00, 0x01]).setReg 0 x).setReg 1 y) (fun t => (t.reg 0, t.reg 1, t.fl, t.pc))

/-- `op 02 02` at address 0: `x[2]` and `FL` after, the form of section 2.10. -/
def aluSame (op x : Byte) : Option (Byte × Byte) :=
  stepped ((placed 0 [op, 0x02, 0x02]).setReg 2 x) (fun t => (t.reg 2, t.fl))

/-- V-A1 and V-S1. -/
theorem test_add : alu 0xA0 0xFF 0x02 = some (0x01, 0x02, 0x00, 3) ∧ aluSame 0xA0 0xC8 = some (0x90, 0x00) := by decide

/-- V-A13 and V-S2. -/
theorem test_mul : alu 0xA2 0xC8 0x03 = some (0x58, 0x03, 0x00, 3) ∧ aluSame 0xA2 0x11 = some (0x21, 0x00) := by decide

/-- V-A51, V-A58 and V-S14. -/
theorem test_mod : alu 0xA4 0x11 0x05 = some (0x02, 0x05, 0x00, 3) ∧ alu 0xA4 0xFF 0xFE = some (0x01, 0xFE, 0x00, 3) ∧
    aluSame 0xA4 0x09 = some (0x00, 0x00) := by decide

/-- V-A57. -/
theorem test_mod_by_zero : stepped ((placed 0 [0xA4, 0x00, 0x01]).setReg 0 0x09) (fun t => (t.reg 0, record t)) =
    some (0x09, .faulted, 3, 0, 0) := by decide

/-- V-A16, V-A17, V-A19 and V-A22. -/
theorem test_cmp : alu 0xA7 0x05 0x05 = some (0x05, 0x05, 0x01, 3) ∧ alu 0xA7 0x05 0x09 = some (0x05, 0x09, 0x04, 3) ∧
    alu 0xA7 0xFF 0x01 = some (0xFF, 0x01, 0x02, 3) ∧ alu 0xA7 0x80 0x7F = some (0x80, 0x7F, 0x02, 3) := by decide

/-- V-F24. -/
theorem test_cmp_operand_8 : stepped (placed 0 [0xA7, 0x08, 0x00]) (fun t => (t.fl, record t)) =
    some (0x00, .faulted, 5, 8, 0) := by decide

/-- V-A23 and V-S4. -/
theorem test_and : alu 0xA8 0xCC 0xAA = some (0x88, 0xAA, 0x00, 3) ∧ aluSame 0xA8 0x5A = some (0x5A, 0x00) := by decide

/-- V-A26. -/
theorem test_or : alu 0xAA 0xCC 0xAA = some (0xEE, 0xAA, 0x00, 3) := by decide

/-- V-A29 and V-S6. -/
theorem test_xor : alu 0xAB 0xCC 0xAA = some (0x66, 0xAA, 0x00, 3) ∧ aluSame 0xAB 0x5A = some (0x00, 0x00) := by decide

/-- V-A32 and V-S7. -/
theorem test_not : alu 0xA9 0x33 0x0F = some (0xF0, 0x0F, 0x00, 3) ∧ aluSame 0xA9 0x5A = some (0xA5, 0x00) := by decide

/-- V-A36, V-A39 and V-A38. -/
theorem test_shl : alu 0xAC 0x05 0x03 = some (0x28, 0x03, 0x00, 3) ∧ alu 0xAC 0x01 0x07 = some (0x80, 0x07, 0x00, 3) ∧
    alu 0xAC 0xFF 0x08 = some (0x00, 0x08, 0x00, 3) := by decide

/-- V-A40 and V-S9. -/
theorem test_shl_amount_is_not_reduced : alu 0xAC 0x01 0xFF = some (0x00, 0xFF, 0x00, 3) ∧
    aluSame 0xAC 0x05 = some (0xA0, 0x00) := by decide

/-- V-A44, V-A45 and V-A47. -/
theorem test_shr : alu 0xAD 0xB0 0x04 = some (0x0B, 0x04, 0x00, 3) ∧ alu 0xAD 0xFF 0x07 = some (0x01, 0x07, 0x00, 3) ∧
    alu 0xAD 0x80 0x01 = some (0x40, 0x01, 0x00, 3) := by decide

/-- V-A46. -/
theorem test_shr_amount_is_not_reduced : alu 0xAD 0xFF 0xC8 = some (0x00, 0xC8, 0x00, 3) := by decide

/-- V-HLT3 and V-HLT2. -/
theorem test_hlt : stepped (placed 255 [0x01]) record = some (.halted, 1, 0, 255) ∧
    stepped (((placed 11 [0x01]).setReg 0 0x48).setFl 0x04) (fun t => (t.reg 0, t.fl, record t)) =
      some (0x48, 0x04, .halted, 1, 0, 11) := by decide

/-- V-HLT4: there is no second step. -/
theorem test_no_step_after_hlt : ∃ t, step (placed 0 [0x01, 0x47, 0x00]) = .next t ∧ step t = .fault .notRunning :=
  ⟨_, rfl, rfl⟩

/-- V-F2, V-F6, V-F8: unrecognized opcodes. -/
theorem test_unrecognized : stepped (placed 0 [0xFF, 0x09, 0x09]) record = some (.halted, 2, 255, 0) ∧
    stepped (placed 253 [0xFF, 0x00, 0x00]) record = some (.halted, 2, 255, 253) ∧
    stepped (placed 255 [0x00]) record = some (.halted, 2, 0, 255) := by decide

/-- V-F4, V-F5, V-F7, V-F10: the operand fetch comes before the lookup, and the first address out of range is reported. -/
theorem test_operand_fetch_out_of_range : stepped (placed 255 [0xFF]) record = some (.faulted, 4, 256, 255) ∧
    stepped (placed 254 [0xFF, 0x00]) record = some (.faulted, 4, 256, 254) ∧
    stepped (placed 255 [0x47]) record = some (.faulted, 4, 256, 255) ∧
    stepped (placed 255 [0xA0]) record = some (.faulted, 4, 256, 255) := by decide

/-- V-F14 and V-F15: the register check comes before the handler, `a` before `b`. -/
theorem test_register_check_order : stepped (placed 0 [0xA4, 0x09, 0x00]) record = some (.faulted, 5, 9, 0) ∧
    stepped (placed 0 [0xA4, 0x09, 0x0A]) record = some (.faulted, 5, 9, 0) := by decide

/-- V-CALL8: the register check comes before the return address check. -/
theorem test_register_check_before_return_address : stepped (placed 254 [0x50, 0x09]) record =
    some (.faulted, 5, 9, 254) := by decide

/-- V-H2: loading. -/
theorem test_load : (load [0x82, 0x00, 0x08] State.reset).toOption.map
    (fun t => (t.byteAt 0, t.byteAt 1, t.byteAt 2, t.byteAt 3, t.pc)) = some (0x82, 0x00, 0x08, 0x00, 0) := by decide

/-- The spelling of 30_encoding.md rule R54. -/
theorem test_asm : Instr.asm (.ldi 0 8) = "LDI R0,8" ∧ Instr.asm (.add 1 2) = "ADD R1,R2" ∧ Instr.asm .hlt = "HLT" ∧
    Instr.asm (.prn 0) = "PRN R0" := by decide

/-! ### Witnesses: for each statement with hypotheses, states and operands that meet them, clause by clause. The theorem
of a statement bears its name; a statement not listed has no hypothesis. -/

/-- Another map that meets the constraints: the default one with a different HLT byte. -/
def otherMap : OpcodeMap
  | .hlt => 0b00111111
  | m => opcodeMap m

theorem otherMap_valid : otherMap.Valid := by refine ⟨?_, ?_, ?_⟩ <;> decide

theorem witness_DefaultOpcodeMapMeetsItsConstraints : (0xC0 ∈ List.range 256 ∧ 0xC0 ≤ 0xC0) ∧ 0xFF ∈ List.range 256 := by
  simp

theorem witness_DecodeInvertsEncodeForEveryOpcodeMap : opcodeMap.Valid ∧ otherMap.Valid ∧ otherMap .hlt ≠ opcodeMap .hlt :=
  ⟨opcodeMap_valid, otherMap_valid, by decide⟩

theorem witness_DecodedBytesBeginWithTheirEncoding : otherMap.Valid ∧
    decodeWith otherMap [0x82, 0x03, 0xFF, 0x09] = .ok (.ldi 3 255) ∧ decodeWith otherMap [0x3F] = .ok .hlt :=
  ⟨otherMap_valid, by decide, by decide⟩

/-- The last place of a three-byte and of a one-byte instruction, and an ill-formed instruction. -/
theorem witness_StepRunsTheDecodedInstruction :
    ((placed 253 [0x82, 0x03, 0xFF]).rs = .running ∧ decode (placed 253 [0x82, 0x03, 0xFF]).codeBytes = .ok (.ldi 3 255)) ∧
    ((placed 255 [0x01]).rs = .running ∧ decode (placed 255 [0x01]).codeBytes = .ok .hlt) ∧
    ((placed 254 [0x45, 0x08]).rs = .running ∧ decode (placed 254 [0x45, 0x08]).codeBytes = .ok (.push 8)) := by decide

theorem witness_EncodedInstructionRunsUnderEveryOpcodeMap : otherMap.Valid ∧ (placed 255 [0x3F]).rs = .running ∧
    (placed 255 [0x3F]).pc.toNat + Instr.length .hlt ≤ 256 ∧
    ∀ (k : Nat) (b : Byte), (encodeWith otherMap .hlt)[k]? = some b →
      (placed 255 [0x3F]).byteAt ((placed 255 [0x3F]).pc.toNat + k) = b := by
  refine ⟨otherMap_valid, rfl, by decide, fun k b h => ?_⟩
  match k, h with
  | 0, h => exact Option.some.inj h

theorem witness_StepIsTheSpecifiedStepFunction : State.reset.rs = .running := by decide

theorem witness_FetchBeyondMemoryRaisesAddressRange :
    ((placed 256 []).rs = .running ∧ 255 < (placed 256 []).pc.toNat) ∧
    ((placed 255 [0x47]).rs = .running ∧ (placed 255 [0x47]).pc.toNat = 255 ∧
      1 ≤ ((placed 255 [0x47]).byteAt 255).toNat / 64) ∧
    ((placed 254 [0xFF]).rs = .running ∧ (placed 254 [0xFF]).pc.toNat = 254 ∧
      2 ≤ ((placed 254 [0xFF]).byteAt 254).toNat / 64) ∧
    ((placed 253 [0xC0]).rs = .running ∧ (placed 253 [0xC0]).pc.toNat ≤ 253 ∧
      ((placed 253 [0xC0]).byteAt (placed 253 [0xC0]).pc.toNat).toNat / 64 = 3) := by decide

/-- At the last address that still fetches all of an unrecognized byte's operands, for 0, 1 and 3 of them. -/
theorem witness_UnrecognizedOpcodeHaltsTheMachine :
    ∀ s ∈ [placed 255 [0x00], placed 254 [0x69, 0x00], placed 253 [0xC0, 0x00, 0x00]],
    s.rs = .running ∧ s.pc.toNat ≤ 255 ∧ s.pc.toNat + min ((s.byteAt s.pc.toNat).toNat / 64) 2 ≤ 255 ∧
    s.byteAt s.pc.toNat ∉ ([0x01, 0x45, 0x46, 0x47, 0x50, 0x54, 0x55, 0x56, 0x82, 0xA0, 0xA2, 0xA4, 0xA7, 0xA8, 0xA9,
      0xAA, 0xAB, 0xAC, 0xAD] : List Byte) := by decide

/-- First operand 8, first operand 255, second operand 8; then an instruction with legal operands, run in a state whose
record already holds the cause (a state no run reaches: for others the premise on `t` never holds). -/
theorem witness_RegisterOperandsAreCheckedInOrder :
    (Instr.regOperands (.push 8)).find? (fun b => 7 < b.toNat) = some 8 ∧
    (Instr.regOperands (.add 255 9)).find? (fun b => 7 < b.toNat) = some 255 ∧
    ((Instr.regOperands (.add 7 8)).find? (fun b => 7 < b.toNat) = some 8 ∧
      (placed 253 [0xA0, 0x07, 0x08]).rs = .running ∧
      decode (placed 253 [0xA0, 0x07, 0x08]).codeBytes = .ok (.add 7 8)) ∧
    ((Instr.regOperands (.add 7 0)).find? (fun b => 7 < b.toNat) = none ∧
      ∃ t, exec (.add 7 0) { State.reset with cause := .registerIndex } = .next t ∧ t.cause = .registerIndex) ∧
    (7 : Byte).toNat ≤ 7 :=
  ⟨by decide, by decide, by decide, ⟨by decide, _, rfl, rfl⟩, by decide⟩

theorem witness_ConditionsArePrecise : State.reset.rs = .running ∧
    ∃ t, step State.reset = .next t ∧ t.rs ≠ .running := ⟨rfl, _, rfl, by decide⟩

theorem witness_RunningMachineStepsAndStoppedMachineDoesNot : State.reset.rs = .running ∧
    (State.reset.stop .hlt).rs ≠ .running ∧ (State.reset.stop .modByZero).rs ≠ .running := by decide

/-- The hypotheses of `Claims.FormatF1` for an opcode byte: `pc = 254`, `pc = 255`, operand bytes 8 and 255. -/
abbrev OneOperandWitness (op : Byte) : Prop :=
  ((placed 254 [op, 0x07]).rs = .running ∧ (placed 254 [op, 0x07]).pc.toNat ≤ 254 ∧
    (placed 254 [op, 0x07]).byteAt (placed 254 [op, 0x07]).pc.toNat = op) ∧
  ((placed 255 [op]).rs = .running ∧ (placed 255 [op]).pc.toNat = 255 ∧ (placed 255 [op]).byteAt 255 = op) ∧
  7 < (8 : Byte).toNat ∧ 7 < (255 : Byte).toNat

/-- The hypotheses of `Claims.FormatF2I` and `Claims.FormatF2R` for an opcode byte: `pc = 253`, `254`, `255`, operand
bytes 7, 8 and 255. -/
abbrev TwoOperandWitness (op : Byte) : Prop :=
  ((placed 253 [op, 0x07, 0x00]).rs = .running ∧ (placed 253 [op, 0x07, 0x00]).pc.toNat ≤ 253 ∧
    (placed 253 [op, 0x07, 0x00]).byteAt (placed 253 [op, 0x07, 0x00]).pc.toNat = op) ∧
  (∀ s ∈ [placed 254 [op, 0x07], placed 255 [op]],
    s.rs = .running ∧ 254 ≤ s.pc.toNat ∧ s.pc.toNat ≤ 255 ∧ s.byteAt s.pc.toNat = op) ∧
  (7 : Byte).toNat ≤ 7 ∧ 7 < (8 : Byte).toNat ∧ 7 < (255 : Byte).toNat

theorem witness_LdiLoadsItsImmediate : TwoOperandWitness 0x82 := by decide
theorem witness_PrnAppendsTheRegisterToTheOutput : OneOperandWitness 0x47 := by decide
theorem witness_PushStoresBelowTheStackPointer : OneOperandWitness 0x45 := by decide
theorem witness_PopLoadsFromTheStackPointer : OneOperandWitness 0x46 := by decide

theorem witness_CallPushesTheReturnAddress : OneOperandWitness 0x50 ∧
    (placed 253 [0x50, 0x07]).pc.toNat + 2 ≤ 255 ∧ 255 < (placed 254 [0x50, 0x07]).pc.toNat + 2 := by decide

theorem witness_JumpGoesToTheRegister : OneOperandWitness 0x54 := by decide
theorem witness_JeqJumpsWhenEqual : OneOperandWitness 0x55 := by decide
theorem witness_JneJumpsWhenNotEqual : OneOperandWitness 0x56 := by decide
theorem witness_AddKeepsTheLowEightBitsOfTheSum : TwoOperandWitness 0xA0 := by decide
theorem witness_MulKeepsTheLowEightBitsOfTheProduct : TwoOperandWitness 0xA2 := by decide
theorem witness_CmpSetsExactlyOneFlag : TwoOperandWitness 0xA7 := by decide
theorem witness_AndCombinesBitByBit : TwoOperandWitness 0xA8 := by decide
theorem witness_OrCombinesBitByBit : TwoOperandWitness 0xAA := by decide
theorem witness_XorCombinesBitByBit : TwoOperandWitness 0xAB := by decide
theorem witness_NotComplementsTheSecondOperand : TwoOperandWitness 0xA9 := by decide
theorem witness_ShlShiftsByTheSecondOperand : TwoOperandWitness 0xAC := by decide
theorem witness_ShrShiftsInZeros : TwoOperandWitness 0xAD := by decide

theorem witness_ModLeavesTheRemainderOrFaults : TwoOperandWitness 0xA4 ∧ (State.reset.setReg 1 1).reg 1 ≠ 0 ∧
    (State.reset.setReg 1 255).reg 1 ≠ 0 ∧ State.reset.reg 1 = 0 := by decide

theorem witness_HltHaltsAtItsOwnAddress :
    ((placed 255 [0x01]).rs = .running ∧ (placed 255 [0x01]).pc.toNat ≤ 255 ∧
      (placed 255 [0x01]).byteAt (placed 255 [0x01]).pc.toNat = 0x01) ∧
    ((placed 256 []).rs = .running ∧ 255 < (placed 256 []).pc.toNat) ∧
    ((placed 255 [0x01]).rs = .running ∧ (placed 255 [0x01]).pc.toNat = 255 ∧
      ∃ t, step (placed 255 [0x01]) = .next t ∧ t.cause = .hlt) :=
  ⟨by decide, by decide, rfl, rfl, _, rfl, rfl⟩

/-- Each of the instructions completes on registers 0 and 1, and stops on operand byte 8. -/
theorem witness_RegisterWritersChangeOneRegister :
    (∀ i ∈ [Instr.ldi 0 1, .add 0 1, .mul 0 1, .mod 0 1, .and 0 1, .not 0 1, .or 0 1, .xor 0 1, .shl 0 1, .shr 0 1],
      ∃ t, exec i (State.reset.setReg 1 3) = .next t ∧ t.rs = .running) ∧
    (∀ i ∈ [Instr.ldi 8 1, .add 8 1, .mul 8 1, .mod 8 1, .and 8 1, .not 8 1, .or 8 1, .xor 8 1, .shl 8 1, .shr 8 1],
      ∃ t, exec i State.reset = .next t ∧ t.rs = .faulted) ∧ (1 : Reg).val ≠ (0 : Byte).toNat := by
  refine ⟨?_, ?_, by decide⟩ <;> simp only [List.forall_mem_cons] <;>
    exact ⟨⟨_, rfl, rfl⟩, ⟨_, rfl, rfl⟩, ⟨_, rfl, rfl⟩, ⟨_, rfl, rfl⟩, ⟨_, rfl, rfl⟩, ⟨_, rfl, rfl⟩, ⟨_, rfl, rfl⟩,
      ⟨_, rfl, rfl⟩, ⟨_, rfl, rfl⟩, ⟨_, rfl, rfl⟩, by simp⟩

theorem witness_CmpChangesNoRegisterAndNoMemory : (∃ t, exec (.cmp 0 7) State.reset = .next t ∧ t.rs = .running) ∧
    ∃ t, exec (.cmp 0 8) State.reset = .next t ∧ t.rs = .faulted := ⟨⟨_, rfl, rfl⟩, _, rfl, rfl⟩

theorem witness_JumpsChangeOnlyTheProgramCounter :
    (∀ i ∈ [Instr.jump 7, .jeq 7, .jne 7], ∃ t, exec i State.reset = .next t ∧ t.rs = .running) ∧
    (∀ i ∈ [Instr.jump 8, .jeq 8, .jne 8], ∃ t, exec i State.reset = .next t ∧ t.rs = .faulted) := by
  refine ⟨?_, ?_⟩ <;> simp only [List.forall_mem_cons] <;>
    exact ⟨⟨_, rfl, rfl⟩, ⟨_, rfl, rfl⟩, ⟨_, rfl, rfl⟩, by simp⟩

theorem witness_PrnChangesOnlyTheOutput : (∃ t, exec (.prn 7) State.reset = .next t ∧ t.out = [0xF4]) ∧
    ∃ t, exec (.prn 8) State.reset = .next t ∧ t.out = [] := ⟨⟨_, rfl, rfl⟩, _, rfl, rfl⟩

/-- Both complete on register 7, stop on operand byte 8; a stop is where the stack pointer stays. -/
theorem witness_PushAndCallStoreOneByte :
    (∀ i ∈ [Instr.push 7, .call 7], ∃ t, exec i State.reset = .next t ∧ t.rs = .running) ∧
    (∀ i ∈ [Instr.push 8, .call 8], ∃ t, exec i State.reset = .next t ∧ t.sp = State.reset.sp) ∧
    (6 : Reg) ≠ 7 ∧ 0xF4 ≠ (decrementSp State.reset).sp.toNat := by
  refine ⟨?_, ?_, by decide, by decide⟩ <;> simp only [List.forall_mem_cons] <;>
    exact ⟨⟨_, rfl, rfl⟩, ⟨_, rfl, rfl⟩, by simp⟩

theorem witness_PopChangesNoMemory : (∃ t, exec (.pop 0) State.reset = .next t ∧ t.rs = .running) ∧
    (∃ t, exec (.pop 8) State.reset = .next t ∧ t.rs = .faulted) ∧ (6 : Reg) ≠ 7 ∧ (6 : Reg).val ≠ (0 : Byte).toNat :=
  ⟨⟨_, rfl, rfl⟩, ⟨_, rfl, rfl⟩, by decide, by decide⟩

theorem witness_HltChangesOnlyTheConditionRecord : ∃ t, exec .hlt State.reset = .next t ∧ t.rs = .halted :=
  ⟨_, rfl, rfl⟩

theorem witness_OnlyCmpWritesTheFlags :
    ((∀ a b, Instr.add 0 0 ≠ .cmp a b) ∧ ∃ t, exec (.add 0 0) State.reset = .next t) ∧
    ∃ t, step (placed 253 [0xA7, 0x00, 0x00]) = .next t ∧ t.fl ≠ (placed 253 [0xA7, 0x00, 0x00]).fl :=
  ⟨⟨by simp, _, rfl⟩, _, rfl, by decide⟩

theorem witness_FlagsAreReadOnlyByTheConditionalJumps :
    ((∀ a, Instr.add 0 0 ≠ .jeq a) ∧ (∀ a, Instr.add 0 0 ≠ .jne a) ∧ (∀ a b, Instr.add 0 0 ≠ .cmp a b) ∧
      ∃ t, exec (.add 0 0) State.reset = .next t) ∧
    ((0x02 : Byte).getLsbD 0 = State.reset.fl.getLsbD 0 ∧ (∃ t, exec (.jeq 7) State.reset = .next t) ∧
      ∃ t, exec (.jne 7) State.reset = .next t) :=
  ⟨⟨by simp, by simp, by simp, _, rfl⟩, by decide, ⟨_, rfl⟩, _, rfl⟩

/-- A register that is written and not read, one that is neither, and the target of a jump that is not taken. -/
theorem witness_RegistersReadAndWrittenFollowTheTable :
    ((∃ t, exec (.ldi 0 1) State.reset = .next t) ∧ (1 : Reg).val ∉ writtenRegs (.ldi 0 1)) ∧
    (Instr.wf (.ldi 0 1) = true ∧ (0 : Reg).val ∉ readRegs State.reset (.ldi 0 1) ∧
      (1 : Reg).val ∉ readRegs State.reset (.ldi 0 1)) ∧
    (Instr.wf (.jeq 7) = true ∧ (7 : Reg).val ∉ readRegs State.reset (.jeq 7) ∧
      ∃ t, exec (.jeq 7) State.reset = .next t) :=
  ⟨⟨⟨_, rfl⟩, by decide⟩, by decide, by decide, by decide, _, rfl⟩

theorem witness_ProgramCounterFollowsTheTable :
    ((placed 253 [0x82, 0x07, 0xFF]).rs = .running ∧
      ∃ t, step (placed 253 [0x82, 0x07, 0xFF]) = .next t ∧ t.rs = .running) ∧
    (State.reset.rs = .running ∧ ∃ t, step State.reset = .next t ∧ t.rs ≠ .running) :=
  ⟨⟨rfl, _, rfl, rfl⟩, rfl, _, rfl, by decide⟩

/-- The last cell, a loaded image and the empty image. -/
theorem witness_MemoryReadsReturnTheLatestWrite : (255 : Nat) ≤ 255 ∧ (∃ t, load [0x82, 0x00] State.reset = .ok t) ∧
    ∃ t, load [] State.reset = .ok t := ⟨by decide, ⟨_, rfl⟩, _, rfl⟩

theorem witness_AddressesOver255RaiseAddressRange : (255 : Nat) < 256 ∧ (255 : Nat) < 258 := by decide

/-- POP in two memories that differ, but not at the stack pointer. -/
theorem witness_DataMemoryIsReadOnlyByPop :
    ((∀ a, Instr.push 0 ≠ .pop a) ∧ ∃ t, exec (.push 0) State.reset = .next t) ∧
    (Memory.get [(0, 0x46)] State.reset.sp.toNat = State.reset.byteAt State.reset.sp.toNat ∧
      (∃ t, exec (.pop 0) State.reset = .next t) ∧ ([(0, 0x46)] : Memory) ≠ State.reset.mem) ∧
    ((∀ a, Instr.pop 0 ≠ .push a) ∧ (∀ a, Instr.pop 0 ≠ .call a)) :=
  ⟨⟨by simp, _, rfl⟩, ⟨by decide, ⟨_, rfl⟩, by decide⟩, by simp, by simp⟩

/-- Two memories built in different orders. -/
theorem witness_EqualReadsMeanEqualMemory : (Memory.set (Memory.set [] 255 1) 0 2).wf ∧ (Memory.set (Memory.set [] 0 2) 255 1).wf ∧
    ∀ a, (Memory.set (Memory.set [] 255 1) 0 2).get a = (Memory.set (Memory.set [] 0 2) 255 1).get a :=
  ⟨by decide, by decide, fun _ => rfl⟩

/-- The byte stored is the opcode, the first operand and the second operand of the next fetch, in the last cells. -/
theorem witness_StoredByteIsSeenByTheNextFetch :
    (∃ t f, memWrite (placed 255 []) 255 0x01 = .ok t ∧ fetch t = .ok f ∧ t.pc.toNat = 255) ∧
    (∃ t f, memWrite (placed 254 [0x47]) 255 0x07 = .ok t ∧ fetch t = .ok f ∧ t.pc.toNat + 1 = 255 ∧
      1 ≤ operandCount f.op) ∧
    (∃ t f, memWrite (placed 253 [0x82]) 255 0x07 = .ok t ∧ fetch t = .ok f ∧ t.pc.toNat + 2 = 255 ∧
      2 ≤ operandCount f.op) :=
  ⟨⟨_, _, rfl, rfl, rfl⟩, ⟨_, _, rfl, rfl, rfl, by decide⟩, _, _, rfl, rfl, rfl, by decide⟩

theorem witness_OutputOnlyGrowsAndOnlyByPrn : (∀ a, Instr.hlt ≠ .prn a) ∧ ∃ t, exec .hlt State.reset = .next t :=
  ⟨by simp, _, rfl⟩

theorem witness_ConditionRecordIsInvisibleToTheProgram :
    (∃ t, step (placed 0 [0x47, 0x00]) = .next t ∧ t.rs = .running) ∧
    ∃ t, step State.reset = .next t ∧ t.rs ≠ .running := ⟨⟨_, rfl, rfl⟩, _, rfl, by decide⟩

/-- At both ends of the program counter's range, and where a CALL stops. -/
theorem witness_EveryStepKeepsTheMachineInvariant :
    ∀ s ∈ [State.reset, placed 253 [0xA7, 0x00, 0x01], placed 256 [], placed 254 [0x50, 0x01]],
      s.Inv ∧ ∃ t, step s = .next t := by
  simp only [List.forall_mem_cons]
  exact ⟨⟨by decide, _, rfl⟩, ⟨by decide, _, rfl⟩, ⟨by decide, _, rfl⟩, ⟨by decide, _, rfl⟩, by simp⟩

/-- An image for each of the three ends: HLT, an unrecognized opcode, a fault. -/
theorem witness_LoadedRunsEndInOneOfThreeWays :
    (∃ s t, load [0x01] State.reset = .ok s ∧ RunResult s t ∧ t.cause = .hlt) ∧
    (∃ s t, load [] State.reset = .ok s ∧ RunResult s t ∧ t.cause = .unrecognizedOpcode) ∧
    (∃ s t, load [0xA4, 0x00, 0x01] State.reset = .ok s ∧ RunResult s t ∧ t.cause = .modByZero) :=
  ⟨⟨_, _, rfl, ⟨1, rfl, by decide⟩, rfl⟩, ⟨_, _, rfl, ⟨1, rfl, by decide⟩, rfl⟩, _, _, rfl, ⟨1, rfl, by decide⟩, rfl⟩

theorem witness_HltIsTheOnlyNormalEnd :
    ((placed 255 [0x01]).rs = .running ∧ (∃ t, step (placed 255 [0x01]) = .next t) ∧
      decode (placed 255 [0x01]).codeBytes = .ok .hlt) ∧
    (State.reset.rs = .running ∧ (∃ t, step State.reset = .next t) ∧ decode State.reset.codeBytes ≠ .ok .hlt) :=
  ⟨⟨rfl, ⟨_, rfl⟩, by decide⟩, rfl, ⟨_, rfl⟩, by decide⟩

theorem witness_PushThenPopRestoresTheRegisters : (∃ t, exec (.push (regByte 7)) State.reset = .next t) ∧
    (∃ t, exec (.push (regByte 0)) State.reset = .next t) ∧ (6 : Reg) ≠ 0 ∧ (0 : Reg) ≠ 7 ∧ (6 : Reg) ≠ 7 :=
  ⟨⟨_, rfl⟩, ⟨_, rfl⟩, by decide, by decide, by decide⟩

/-- The CALL with the largest return address, and a state after it that differs in registers, flags and output. -/
theorem witness_ReturnIdiomReturnsAfterTheCall : (6 : Reg) ≠ 7 ∧ (placed 253 [0x50, 0x01]).pc.toNat + 2 ≤ 255 ∧
    ∃ t t', exec (.call (regByte 1)) (placed 253 [0x50, 0x01]) = .next t ∧ t' = { t.setReg 0 9 with fl := 4, out := [1] } ∧
      t'.sp = t.sp ∧ t'.byteAt t.sp.toNat = t.byteAt t.sp.toNat :=
  ⟨by decide, by decide, _, _, rfl, rfl, rfl, rfl⟩

theorem witness_JumpToItselfRunsForever :
    ∀ s ∈ [(placed 254 [0x54, 0x00]).setReg 0 254, placed 0 [0x54, 0x00]],
    s.rs = .running ∧ s.pc.toNat ≤ 254 ∧ s.byteAt s.pc.toNat = 0x54 ∧ s.byteAt (s.pc.toNat + 1) = regByte 0 ∧
      (s.reg 0).toNat = s.pc.toNat := by decide

/-- The longest image that fits, and one byte more. -/
theorem witness_LoadPlacesTheImageFromAddressZero : (List.replicate 256 (0xFF : Byte)).length ≤ 256 ∧
    256 < (List.replicate 257 (0xFF : Byte)).length :=
  ⟨by rw [List.length_replicate], by rw [List.length_replicate]; decide⟩

theorem witness_RunReturnsTheOneStoppedState : (State.reset.stop .hlt).rs ≠ .running ∧
    (∃ u, step State.reset = .next u ∧ RunResult State.reset u ∧ RunResult u u) ∧ State.reset.rs = .running :=
  ⟨by decide, ⟨_, rfl, ⟨1, rfl, by decide⟩, ⟨0, rfl, by decide⟩⟩, rfl⟩

end Sys2Proof.Tests
end

section
/-! The program counter (10_state.md rule R16): what a step does with `pc`, through what an execution does with it. -/

namespace Sys2Proof.Machine

variable {s t : State} {i : Instr}

/-- Every condition ends the run (60_exceptions.md rule R95). -/
theorem Condition.runState_ne_running (c : Condition) : c.runState ≠ .running := by
  cases c <;> simp [Condition.runState]

@[simp] theorem jumpIf_rs (taken : Bool) (r : Reg) (s : State) : (jumpIf taken r s).rs = s.rs := by
  cases taken <;> rfl

theorem jumpIf_pc (taken : Bool) (r : Reg) (s : State) :
    (jumpIf taken r s).pc = if taken then (s.reg r).setWidth 9 else s.pc + 2 := by
  cases taken <;> rfl

@[simp] theorem regAddress_regByte (s : State) (r : Reg) : regAddress s (regByte r) = (s.reg r).setWidth 9 := by
  simp [regAddress]

/-- What a step can do, with the instruction named by the decoder of byte lists: it enters a condition, or runs the
instruction whose bytes lie at `pc`. -/
theorem step_cases (h : step s = .next t) :
    s.rs = .running ∧ ((∃ c, t = s.stop c) ∨ ∃ i, decode s.codeBytes = .ok i ∧ exec i s = .next t) := by
  obtain ⟨hs, ⟨c, _, ht⟩ | ⟨f, _, _, ht⟩ | ⟨f, m, hf, hl, hx⟩⟩ := loopBody_cases h
  · exact ⟨hs, .inl ⟨c, ht⟩⟩
  · exact ⟨hs, .inl ⟨_, ht⟩⟩
  · exact ⟨hs, .inr ⟨_, decode_codeBytes.2 ⟨f, m, hf, hl, rfl⟩, hx⟩⟩

/-- An instruction enters a condition, or completes: then it leaves `RS` alone and `pc` is the entry of the table. -/
theorem exec_stops_or_pc_eq_pcAfter (h : exec i s = .next t) :
    (∃ c, t = s.stop c) ∨ (t.rs = s.rs ∧ t.pc = pcAfter s t i) := by
  have stops {c : Condition} (hc : exec i s = .next (s.stop c)) :
      (∃ c, t = s.stop c) ∨ (t.rs = s.rs ∧ t.pc = pcAfter s t i) :=
    .inl ⟨c, Host.Outcome.next.inj (h.symm.trans hc)⟩
  have completes {u : State} (hu : exec i s = .next u) (hrs : u.rs = s.rs) (hpc : u.pc = pcAfter s u i) :
      (∃ c, t = s.stop c) ∨ (t.rs = s.rs ∧ t.pc = pcAfter s t i) := by
    obtain rfl : t = u := Host.Outcome.next.inj (h.symm.trans hu)
    exact .inr ⟨hrs, hpc⟩
  obtain hi | ⟨b, _, _, hb⟩ := onRegisters_or_stops i
  · cases hi with
    | hlt => exact stops (exec_hlt s)
    | ldi r imm => exact completes (exec_ldi r imm s) rfl rfl
    | prn r => exact completes (exec_prn r s) rfl rfl
    | push r => exact completes (exec_push r s) rfl rfl
    | pop r => exact completes (exec_pop r s) rfl rfl
    | call r =>
      by_cases hret : s.pc.toNat + 2 ≤ 255
      · exact completes (exec_call_of_le r s hret) rfl (regAddress_regByte _ r).symm
      · exact stops (exec_call_of_gt r s (Nat.lt_of_not_le hret))
    | jump r => exact completes (exec_jump r s) rfl (regAddress_regByte _ r).symm
    | jeq r =>
      refine completes (exec_jeq r s) (jumpIf_rs _ r s) ?_
      rw [jumpIf_pc, pcAfter, regAddress_regByte, State.flagE]
    | jne r =>
      refine completes (exec_jne r s) (jumpIf_rs _ r s) ?_
      rw [jumpIf_pc, pcAfter, regAddress_regByte, State.flagE]
      cases s.fl.getLsbD 0 <;> rfl
    | mod r q =>
      by_cases hq : s.reg q = 0
      · exact stops (exec_mod_of_eq r q s hq)
      · exact completes (exec_mod_of_ne r q s hq) rfl rfl
    | cmp r q => exact completes (exec_cmp r q s) rfl rfl
    | add r q => exact completes (exec_add r q s) rfl rfl
    | mul r q => exact completes (exec_mul r q s) rfl rfl
    | and r q => exact completes (exec_and r q s) rfl rfl
    | not r q => exact completes (exec_not r q s) rfl rfl
    | or r q => exact completes (exec_or r q s) rfl rfl
    | xor r q => exact completes (exec_xor r q s) rfl rfl
    | shl r q => exact completes (exec_shl r q s) rfl rfl
    | shr r q => exact completes (exec_shr r q s) rfl rfl
  · exact stops (hb s)

/-- The same of a whole step: it enters a condition, or completes the instruction whose bytes lie at `pc`. -/
theorem step_stops_or_pc_eq_pcAfter (h : step s = .next t) :
    (∃ c, t = s.stop c) ∨ (t.rs = .running ∧ ∃ i, decode s.codeBytes = .ok i ∧ t.pc = pcAfter s t i) := by
  obtain ⟨hs, hstop | ⟨i, hi, hx⟩⟩ := step_cases h
  · exact .inl hstop
  · obtain hstop | ⟨hrs, hpc⟩ := exec_stops_or_pc_eq_pcAfter hx
    · exact .inl hstop
    · exact .inr ⟨hrs.trans hs, i, hi, hpc⟩

/-- Settles O43: a step that enters a condition keeps `pc` and is no longer RUNNING; one that completes an
instruction is RUNNING, with `pc` from the table. -/
theorem programCounterFollowsTheTable : Obligations.ProgramCounterFollowsTheTable := by
  intro s t _ h
  obtain ⟨c, rfl⟩ | ⟨hrun, htable⟩ := step_stops_or_pc_eq_pcAfter h
  · exact ⟨fun hrun => absurd hrun c.runState_ne_running, fun _ => State.stop_pc s c⟩
  · exact ⟨fun _ => htable, fun hstop => absurd hrun hstop⟩

end Sys2Proof.Machine
end

section
/-! The memory's contract (20_memory.md rule R28): what a read answers after a write, a load and a reset. -/

namespace Sys2Proof.Machine

/-- The cells from the place upwards hold the bytes placed, and beyond them what they held before. -/
theorem Memory.get_place (m : Memory) {a : Nat} {bs : List Byte} (hfit : a + bs.length ≤ Config.memSize) (k : Nat) :
    (m.place a bs).get (a + k) = bs.getD k (m.get (a + k)) := by
  induction bs generalizing m a k with
  | nil => rfl
  | cons b bs ih =>
    rw [List.length_cons] at hfit
    rw [Memory.place, if_pos (by omega)]
    cases k with
    | zero => simp [Memory.get_place_below _ bs (Nat.lt_succ_self a)]
    | succ k =>
      rw [List.getD_cons_succ, show a + (k + 1) = a + 1 + k by omega, ih _ (by omega),
        Memory.get_set_of_ne m b (by omega)]

theorem load_eq_ok_iff {bytes : List Byte} {s t : State} :
    load bytes s = .ok t ↔ bytes.length ≤ Config.memSize ∧ { s with mem := s.mem.place 0 bytes } = t := by
  unfold load
  split <;> simp [*]

/-- A load puts the image into the cells from 0 on and leaves the others (70_reset_and_hazards.md rule R119). -/
theorem byteAt_of_load {bytes : List Byte} {s t : State} (h : load bytes s = .ok t) (a : Nat) :
    t.byteAt a = bytes.getD a (s.byteAt a) := by
  obtain ⟨hfit, rfl⟩ := load_eq_ok_iff.1 h
  simpa [State.byteAt] using s.mem.get_place (a := 0) (by simpa using hfit) a

/-- A read depends on the content of its cell alone. -/
theorem memRead_congr {s t : State} {a : Nat} (h : s.byteAt a = t.byteAt a) : memRead s a = memRead t a := by
  rw [memRead, memRead, h]

/-- Settles O44, a clause each for the read, the write, the load and the reset: every one is what the operation does
to `byteAt`, read through `memRead`. -/
theorem memoryReadsReturnTheLatestWrite : Obligations.MemoryReadsReturnTheLatestWrite := by
  have inside {a : Nat} (ha : a ≤ 255) : a < Config.memSize := Nat.lt_succ_of_le ha
  refine ⟨fun s a ha => memRead_of_lt s (inside ha), fun s a v ha => ?write, fun bytes s t hload a ha => ?load,
    fun a ha => memRead_of_lt State.reset (inside ha)⟩
  case write =>
    refine ⟨_, memWrite_of_lt s v (inside ha), rfl, ?_, fun b hb => memRead_congr (Memory.get_set_of_ne s.mem v hb)⟩
    rw [memRead_of_lt _ (inside ha), State.byteAt, Memory.get_set_self]
  case load =>
    split
    case isTrue hcovered =>
      rw [memRead_of_lt t (inside ha), byteAt_of_load hload, List.getD_eq_getElem _ _ hcovered]
    case isFalse hbeyond =>
      refine memRead_congr ?_
      rw [byteAt_of_load hload, List.getD_eq_default _ _ (Nat.le_of_not_lt hbeyond)]

end Sys2Proof.Machine
end

section
/-! The register operands (40_execution_loop.md rule R62, 60_exceptions.md rule R101): the first operand byte over 7
stops the instruction, and an instruction on registers never raises RegisterIndex. -/

namespace Sys2Proof.Machine

variable {s : State} {i : Instr} {a b c : Byte}

/-- A step runs the instruction whose bytes lie at `pc` (40_execution_loop.md rule R64). -/
theorem step_of_decode (hs : s.rs = .running) (hi : decode s.codeBytes = .ok i) : step s = exec i s := by
  obtain ⟨f, m, hf, hl, rfl⟩ := decode_codeBytes.1 hi
  simp only [step, loopBody_running opcodeMap hs, hf, hl]

/-! ### The first operand byte over 7 -/

theorem not_seven_lt_val (r : Reg) : ¬ 7 < r.val := by omega

/-- The check of one register operand stops at the first byte over 7 of `[a]`. -/
theorem withReg_of_find?_eq_some (hc : [a].find? (fun b => 7 < b.toNat) = some c) (s : State)
    (h : Reg → Except Condition State) : withReg a s h = .next (s.stop (.registerIndex c)) := by
  obtain ⟨r, rfl, _⟩ | ⟨ha, hstop⟩ := withReg_cases a s h
  · simp [not_seven_lt_val] at hc
  · obtain rfl : a = c := by simpa [ha] using hc
    exact hstop

/-- The check of two register operands stops at the first byte over 7 of `[a, b]`. -/
theorem withRegs_of_find?_eq_some (hc : [a, b].find? (fun b => 7 < b.toNat) = some c) (s : State)
    (h : Reg → Reg → Except Condition State) : withRegs a b s h = .next (s.stop (.registerIndex c)) := by
  obtain ⟨r, q, rfl, rfl, _⟩ | ⟨ha, hstop⟩ | ⟨r, rfl, hb, hstop⟩ := withRegs_cases a b s h
  · simp [not_seven_lt_val] at hc
  · obtain rfl : a = c := by simpa [ha] using hc
    exact hstop
  · obtain rfl : b = c := by simpa [not_seven_lt_val, hb] using hc
    exact hstop

/-- The first register operand over 7 makes the instruction raise `RegisterIndex` with that byte. -/
theorem exec_of_find?_regOperands_eq_some (hb : i.regOperands.find? (fun b => 7 < b.toNat) = some b) (s : State) :
    exec i s = .next (s.stop (.registerIndex b)) := by
  cases i with
  | hlt => cases hb
  | push | pop | prn | call | jump | jeq | jne | ldi => exact withReg_of_find?_eq_some hb s _
  | add | mul | mod | cmp | and | not | or | xor | shl | shr => exact withRegs_of_find?_eq_some hb s _

/-! ### Instructions on registers -/

theorem onRegisters_of_find?_eq_none (hi : i.regOperands.find? (fun b => 7 < b.toNat) = none) : OnRegisters i := by
  obtain hreg | ⟨b, hmem, hb, _⟩ := onRegisters_or_stops i
  · exact hreg
  · exact absurd (decide_eq_true hb) (List.find?_eq_none.1 hi b hmem)

@[simp] theorem jumpIf_cause (taken : Bool) (r : Reg) (s : State) : (jumpIf taken r s).cause = s.cause := by
  cases taken <;> rfl

@[simp] theorem jumpIf_info (taken : Bool) (r : Reg) (s : State) : (jumpIf taken r s).info = s.info := by
  cases taken <;> rfl

/-- An instruction on registers keeps the condition record, or enters a condition other than `RegisterIndex`. -/
theorem OnRegisters.exec_keeps_record_or_stops (hi : OnRegisters i) (s : State) :
    (∃ t, exec i s = .next t ∧ t.rs = s.rs ∧ t.cause = s.cause ∧ t.info = s.info) ∨
      ∃ c, exec i s = .next (s.stop c) ∧ c.cause ≠ .registerIndex := by
  cases hi with
  | hlt => exact .inr ⟨_, exec_hlt s, by decide⟩
  | push r => exact .inl ⟨_, exec_push r s, rfl, rfl, rfl⟩
  | pop r => exact .inl ⟨_, exec_pop r s, rfl, rfl, rfl⟩
  | call r =>
    by_cases hret : s.pc.toNat + 2 ≤ 255
    · exact .inl ⟨_, exec_call_of_le r s hret, rfl, rfl, rfl⟩
    · exact .inr ⟨_, exec_call_of_gt r s (Nat.lt_of_not_le hret), by simp [Condition.cause]⟩
  | jeq r => exact .inl ⟨_, exec_jeq r s, by simp⟩
  | jne r => exact .inl ⟨_, exec_jne r s, by simp⟩
  | mod r q =>
    by_cases hq : s.reg q = 0
    · exact .inr ⟨_, exec_mod_of_eq r q s hq, by decide⟩
    · exact .inl ⟨_, exec_mod_of_ne r q s hq, rfl, rfl, rfl⟩
  | ldi r | prn r | jump r => exact .inl ⟨_, withReg_regByte r s _, rfl, rfl, rfl⟩
  | add r q | mul r q | cmp r q | and r q | not r q | or r q | xor r q | shl r q | shr r q =>
    exact .inl ⟨_, withRegs_regByte r q s _, rfl, rfl, rfl⟩

/-- Settles O11: the check that stops at the first operand over 7, and the record after an instruction whose
operands all name registers; the clauses on `regOperands` read its table. -/
theorem registerOperandsAreCheckedInOrder : Obligations.RegisterOperandsAreCheckedInOrder := by
  refine ⟨fun i s b hb => ?raises, fun i s t hi h hcause => ?onlyThen, fun b hb => ?names, rfl, rfl,
    fun a b => ⟨rfl, rfl, rfl, rfl, rfl, rfl, rfl, rfl⟩, fun a b => by simp [Instr.regOperands]⟩
  case raises =>
    have hstop := exec_of_find?_regOperands_eq_some hb s
    exact ⟨hstop, fun hs hi => (step_of_decode hs hi).trans hstop⟩
  case onlyThen =>
    obtain ⟨u, hu, _, hkept, _⟩ | ⟨c, hstop, hc⟩ := (onRegisters_of_find?_eq_none hi).exec_keeps_record_or_stops s
    · obtain rfl : t = u := Host.Outcome.next.inj (h.symm.trans hu)
      exact hkept ▸ hcause
    · obtain rfl : t = s.stop c := Host.Outcome.next.inj (h.symm.trans hstop)
      exact absurd hcause hc
  case names =>
    obtain ⟨r, rfl, _⟩ | ⟨hgt, _⟩ := regOperand_cases b
    · exact ⟨r, (regByte_toNat r).symm, rfl⟩
    · omega

end Sys2Proof.Machine
end

section
/-! Three-byte instructions (30_encoding.md rule R43, 40_execution_loop.md rules R58 to R61): encoding, fetch and the
check of the first operand, and LDI (41_load_and_output.md rule R67). -/

namespace Sys2Proof.Machine

open Sys2Proof.Claims

variable {s : State} {c : Condition} {m : Mnemonic}

/-- An instruction has as many of the two fetched operand bytes as its format says. -/
theorem makeInstr_operands (m : Mnemonic) (a b : Byte) :
    (makeInstr m a b).operands = [a, b].take m.format.operandCount := by
  cases m <;> rfl

/-- With two operand bytes at hand every row of the map decodes, whatever follows. -/
theorem decode_opcode_cons_cons (m : Mnemonic) (a b : Byte) (rest : List Byte) (hm : m.format.operandCount ≤ 2) :
    decode (opcodeMap m :: a :: b :: rest) = .ok (makeInstr m a b) := by
  have hlen : ¬ (a :: b :: rest).length < m.format.operandCount := by
    simp only [List.length_cons]
    omega
  simp only [decode, decodeWith, lookup_of_valid opcodeMap_valid m, if_neg hlen]
  rfl

theorem step_of_fetch_error (hs : s.rs = .running) (hf : fetch s = .error c) : step s = .next (s.stop c) := by
  simp only [step, loopBody_running opcodeMap hs, hf]

/-- Where the second operand byte lies beyond the last cell, the fetch of an opcode with two operand bytes fails at the
first address out of range. -/
theorem fetch_of_two_operands_beyond (hlo : 254 ≤ s.pc.toNat) (hhi : s.pc.toNat ≤ 255)
    (hop : operandCount (s.byteAt s.pc.toNat) = 2) : fetch s = .error (.addressRange 256) := by
  cases hf : fetch s with
  | ok f =>
    obtain ⟨_, hfop, _, hsecond⟩ := fetch_ok hf
    obtain ⟨hfit, _⟩ := hsecond (by rw [hfop, hop])
    omega
  | error c =>
    obtain ⟨hpc, _⟩ | ⟨_, _, rfl⟩ | ⟨_, _, rfl⟩ := fetch_error hf
    · omega
    · rfl
    · rfl

/-- Every row of the map with two operand bytes is encoded, decoded and fetched as a three-byte instruction. -/
theorem threeBytes_of_operandCount (hm : m.format.operandCount = 2) : ThreeBytes (opcodeMap m) (makeInstr m) := by
  refine ⟨fun a b => ?encoded, fun a b rest => decode_opcode_cons_cons m a b rest hm.le,
    fun s hs hpc hop => ?runs, fun s hs hlo hhi hop => ?beyond⟩
  case encoded =>
    rw [encode, encodeWith, makeInstr_mnemonic, makeInstr_operands, hm]
    rfl
  case runs =>
    refine step_of_decode hs ?_
    rw [codeBytes_of_le hpc, hop]
    exact decode_opcode_cons_cons m _ _ [] hm.le
  case beyond =>
    refine step_of_fetch_error hs (fetch_of_two_operands_beyond hlo hhi ?_)
    rw [hop, operandCount_of_valid opcodeMap_valid, hm]

/-- Settles O14: LDI has two operand bytes, checks the first alone, and on a register writes the immediate. -/
theorem ldiLoadsItsImmediate : Obligations.LdiLoadsItsImmediate :=
  ⟨⟨threeBytes_of_operandCount (m := .ldi) rfl, fun _ _ s ha => withReg_of_gt ha s _⟩,
    fun ra imm s => exec_ldi ra imm s⟩

end Sys2Proof.Machine
end

section
/-! Two-byte instructions (30_encoding.md rule R43, 40_execution_loop.md rules R58 to R61): encoding, fetch and the
check of the operand. The lemmas speak of every row of the map in format `F1`. -/

namespace Sys2Proof.Machine

open Sys2Proof.Claims

variable {s : State} {m : Mnemonic}

/-- An instruction of format `F1` does not look at the second fetched byte. -/
theorem makeInstr_of_f1 (hm : m.format = .f1) (a b : Byte) : makeInstr m a b = makeInstr m a 0 := by
  cases m with
  | push | pop | prn | call | jump | jeq | jne => rfl
  | _ => cases hm

theorem makeInstr_regOperands_of_f1 (hm : m.format = .f1) (a b : Byte) : (makeInstr m a b).regOperands = [a] := by
  cases m with
  | push | pop | prn | call | jump | jeq | jne => rfl
  | _ => cases hm

/-- With one operand byte at hand every row of format `F1` decodes, whatever follows. -/
theorem decode_opcode_cons_of_f1 (hm : m.format = .f1) (a : Byte) (rest : List Byte) :
    decode (opcodeMap m :: a :: rest) = .ok (makeInstr m a 0) := by
  have hlen : ¬ (a :: rest).length < m.format.operandCount := by simp [hm, Format.operandCount]
  simp only [decode, decodeWith, lookup_of_valid opcodeMap_valid m, if_neg hlen]
  exact congrArg Except.ok (makeInstr_of_f1 hm a _)

theorem exists_codeBytes_eq_cons_cons (hpc : s.pc.toNat ≤ 254) :
    ∃ rest, s.codeBytes = s.byteAt s.pc.toNat :: s.byteAt (s.pc.toNat + 1) :: rest := by
  obtain hle | heq : s.pc.toNat ≤ 253 ∨ s.pc.toNat = 254 := by omega
  · exact ⟨_, codeBytes_of_le hle⟩
  · exact ⟨[], by rw [codeBytes_of_eq_254 heq, heq]⟩

/-- At the last cell the fetch of an opcode with operands fails at the first operand byte. -/
theorem fetch_of_operand_beyond (hpc : s.pc.toNat = 255) (hop : 1 ≤ operandCount (s.byteAt 255)) :
    fetch s = .error (.addressRange 256) := by
  cases hf : fetch s with
  | ok f =>
    obtain ⟨_, hfop, hfirst, _⟩ := fetch_ok hf
    obtain ⟨hfit, _⟩ := hfirst (by rwa [hfop, hpc])
    omega
  | error c =>
    obtain ⟨hgt, _⟩ | ⟨_, _, rfl⟩ | ⟨h254, _⟩ := fetch_error hf
    · omega
    · rfl
    · omega

/-- Every row of the map in format `F1` is encoded, decoded and fetched as a two-byte instruction, and checks its one
operand byte. -/
theorem formatF1_of_f1 (hm : m.format = .f1) : FormatF1 (opcodeMap m) (fun a => makeInstr m a 0) := by
  refine ⟨fun a => ?encoded, decode_opcode_cons_of_f1 hm, fun s hs hpc hop => ?runs, fun s hs hpc hop => ?beyond,
    fun a s ha => exec_of_find?_regOperands_eq_some ?checked s⟩
  case encoded =>
    rw [encode, encodeWith, makeInstr_mnemonic, makeInstr_operands, hm]
    rfl
  case runs =>
    obtain ⟨rest, hbytes⟩ := exists_codeBytes_eq_cons_cons hpc
    refine step_of_decode hs ?_
    rw [hbytes, hop]
    exact decode_opcode_cons_of_f1 hm _ rest
  case beyond =>
    refine step_of_fetch_error hs (fetch_of_operand_beyond hpc ?_)
    rw [hop, operandCount_of_valid opcodeMap_valid, hm]
    exact le_rfl
  case checked =>
    rw [makeInstr_regOperands_of_f1 hm]
    simp [ha]

end Sys2Proof.Machine
end

section
/-! The jumps (43_control_flow.md rules R73 and R75 to R77): where each of them sets `pc`, and that it changes nothing
else. -/

namespace Sys2Proof.Machine

/-- A jump target is the register's value, as a number. -/
theorem State.jumpTo_eq (s : State) (v : Byte) : s.jumpTo v = { s with pc := BitVec.ofNat 9 v.toNat } := by
  rw [BitVec.ofNat_toNat]
  rfl

/-- A conditional jump changes `pc` alone. -/
theorem jumpIf_eq (taken : Bool) (r : Reg) (s : State) :
    jumpIf taken r s = { s with pc := if taken then BitVec.ofNat 9 (s.reg r).toNat else s.pc + 2 } := by
  cases taken with
  | true => exact s.jumpTo_eq (s.reg r)
  | false => rfl

/-- After reset E is 0 (10_state.md rule R26, decision D5). -/
theorem reset_fl_getLsbD_zero : State.reset.fl.getLsbD 0 = false := by decide

/-- Settles O19: JUMP is a two-byte instruction, and its target is the value of its register. -/
theorem jumpGoesToTheRegister : Obligations.JumpGoesToTheRegister := by
  refine ⟨formatF1_of_f1 (m := .jump) rfl, fun ra s => ?_⟩
  rw [exec_jump, State.jumpTo_eq]

/-- Settles O20: JEQ is a two-byte instruction and the conditional jump on E. -/
theorem jeqJumpsWhenEqual : Obligations.JeqJumpsWhenEqual := by
  refine ⟨formatF1_of_f1 (m := .jeq) rfl, reset_fl_getLsbD_zero, fun ra s => ?_⟩
  rw [exec_jeq, jumpIf_eq, State.flagE]

/-- Settles O21: JNE is a two-byte instruction and the conditional jump on the negation of E. -/
theorem jneJumpsWhenNotEqual : Obligations.JneJumpsWhenNotEqual := by
  refine ⟨formatF1_of_f1 (m := .jne) rfl, reset_fl_getLsbD_zero, fun ra s => ?_⟩
  rw [exec_jne, jumpIf_eq, State.flagE]
  simp only [Bool.not_eq_true']

end Sys2Proof.Machine
end

section
/-! Instructions with two register operands (30_encoding.md rule R43, 40_execution_loop.md rules R58 to R62): encoding,
fetch and the two checks. The lemmas speak of every row of the map in format `F2R`. -/

namespace Sys2Proof.Machine

open Sys2Proof.Claims

variable {m : Mnemonic}

theorem makeInstr_regOperands_of_f2r (hm : m.format = .f2r) (a b : Byte) :
    (makeInstr m a b).regOperands = [a, b] := by
  cases m with
  | add | mul | mod | cmp | and | not | or | xor | shl | shr => rfl
  | _ => cases hm

/-- Every row of the map in format `F2R` is encoded, decoded and fetched as a three-byte instruction, and checks its
first operand byte before its second. -/
theorem formatF2R_of_f2r (hm : m.format = .f2r) : FormatF2R (opcodeMap m) (makeInstr m) := by
  refine ⟨threeBytes_of_operandCount (by rw [hm]; rfl),
    fun a b s ha => exec_of_find?_regOperands_eq_some ?first s,
    fun a b s ha hb => exec_of_find?_regOperands_eq_some ?second s⟩
  case first =>
    rw [makeInstr_regOperands_of_f2r hm]
    simp [ha]
  case second =>
    rw [makeInstr_regOperands_of_f2r hm]
    simp [Nat.not_lt.2 ha, hb]

end Sys2Proof.Machine
end

section
/-! The ALU instructions (44_alu.md section 2): what an ALU write leaves, and ADD, MUL, CMP, AND, OR and XOR. -/

namespace Sys2Proof.Machine

variable (f : Byte → Byte → Byte) (s : State) (ra rb : Reg)

/-- An ALU write changes the destination and `pc`, and nothing else (44_alu.md rule R79). -/
theorem aluWrite_eq : aluWrite f s ra rb =
    { s with regs := s.regs.set ra (f (s.reg ra) (s.reg rb)), pc := s.pc + 3 } := rfl

variable {f s ra rb} in
/-- An ALU write whose result is known as a number. -/
theorem aluWrite_eq_ofNat {n : Nat} (hn : (f (s.reg ra) (s.reg rb)).toNat = n) : aluWrite f s ra rb =
    { s with regs := s.regs.set ra (BitVec.ofNat 8 n), pc := s.pc + 3 } := by
  rw [aluWrite_eq, ← hn, BitVec.ofNat_toNat, BitVec.setWidth_eq]

/-- CMP compares its bytes as unsigned numbers. -/
theorem compareFlags_eq_toNat (x y : Byte) : compareFlags x y =
    if x.toNat = y.toNat then 0b00000001 else if x.toNat > y.toNat then 0b00000010 else 0b00000100 := by
  simp only [compareFlags, ← BitVec.toNat_inj, BitVec.lt_def, gt_iff_lt]

/-- Settles O22: the sum of two bytes, as a number, is the sum of the numbers modulo 256. -/
theorem addKeepsTheLowEightBitsOfTheSum : Obligations.AddKeepsTheLowEightBitsOfTheSum := by
  refine ⟨formatF2R_of_f2r (m := .add) rfl, fun ra rb s => ?_⟩
  rw [exec_add, aluWrite_eq_ofNat (BitVec.toNat_add (s.reg ra) (s.reg rb))]

/-- Settles O23: the product of two bytes, as a number, is the product of the numbers modulo 256. -/
theorem mulKeepsTheLowEightBitsOfTheProduct : Obligations.MulKeepsTheLowEightBitsOfTheProduct := by
  refine ⟨formatF2R_of_f2r (m := .mul) rfl, fun ra rb s => ?_⟩
  rw [exec_mul, aluWrite_eq_ofNat (BitVec.toNat_mul (s.reg ra) (s.reg rb))]

/-- Settles O24: CMP writes the flags of the unsigned comparison. -/
theorem cmpSetsExactlyOneFlag : Obligations.CmpSetsExactlyOneFlag := by
  refine ⟨formatF2R_of_f2r (m := .cmp) rfl, fun ra rb s => ?_⟩
  rw [exec_cmp, compareFlags_eq_toNat]
  rfl

/-- Settles O25: the byte written is the conjunction, read bit by bit. -/
theorem andCombinesBitByBit : Obligations.AndCombinesBitByBit := by
  refine ⟨formatF2R_of_f2r (m := .and) rfl, fun ra rb s => ⟨s.reg ra &&& s.reg rb, ?_, fun k => ?_⟩⟩
  · rw [exec_and, aluWrite_eq]
  · rw [BitVec.getLsbD_and, Bool.and_eq_true]

/-- Settles O26: the byte written is the disjunction, read bit by bit. -/
theorem orCombinesBitByBit : Obligations.OrCombinesBitByBit := by
  refine ⟨formatF2R_of_f2r (m := .or) rfl, fun ra rb s => ⟨s.reg ra ||| s.reg rb, ?_, fun k => ?_⟩⟩
  · rw [exec_or, aluWrite_eq]
  · rw [BitVec.getLsbD_or, Bool.or_eq_true]

/-- Settles O27: the byte written is the exclusive or, read bit by bit. -/
theorem xorCombinesBitByBit : Obligations.XorCombinesBitByBit := by
  refine ⟨formatF2R_of_f2r (m := .xor) rfl, fun ra rb s => ⟨s.reg ra ^^^ s.reg rb, ?_, fun k => ?_⟩⟩
  · rw [exec_xor, aluWrite_eq]
  · rw [BitVec.getLsbD_xor, Bool.xor_iff_ne]

end Sys2Proof.Machine
end

section
/-! The writers of `FL` (44_alu.md rule R92): CMP alone, of the instructions and of the steps. -/

namespace Sys2Proof.Machine

variable {s t : State} {i : Instr}

@[simp] theorem jumpIf_fl (taken : Bool) (r : Reg) (s : State) : (jumpIf taken r s).fl = s.fl := by
  cases taken <;> rfl

/-- An instruction on registers other than CMP answers a state with the old `FL`. -/
theorem OnRegisters.exec_keeps_fl (hi : OnRegisters i) (hcmp : ∀ a b, i ≠ .cmp a b) (s : State) :
    ∃ t, exec i s = .next t ∧ t.fl = s.fl := by
  cases hi with
  | cmp r q => exact absurd rfl (hcmp _ _)
  | hlt => exact ⟨_, exec_hlt s, rfl⟩
  | push r => exact ⟨_, exec_push r s, rfl⟩
  | pop r => exact ⟨_, exec_pop r s, rfl⟩
  | call r =>
    by_cases hret : s.pc.toNat + 2 ≤ 255
    · exact ⟨_, exec_call_of_le r s hret, rfl⟩
    · exact ⟨_, exec_call_of_gt r s (Nat.lt_of_not_le hret), rfl⟩
  | jeq r => exact ⟨_, exec_jeq r s, jumpIf_fl _ r s⟩
  | jne r => exact ⟨_, exec_jne r s, jumpIf_fl _ r s⟩
  | mod r q =>
    by_cases hq : s.reg q = 0
    · exact ⟨_, exec_mod_of_eq r q s hq, rfl⟩
    · exact ⟨_, exec_mod_of_ne r q s hq, rfl⟩
  | ldi r | prn r | jump r => exact ⟨_, withReg_regByte r s _, rfl⟩
  | add r q | mul r q | and r q | not r q | or r q | xor r q | shl r q | shr r q =>
    exact ⟨_, withRegs_regByte r q s _, rfl⟩

/-- No instruction but CMP changes `FL`, on any operand bytes. -/
theorem exec_keeps_fl (hcmp : ∀ a b, i ≠ .cmp a b) (h : exec i s = .next t) : t.fl = s.fl := by
  obtain hi | ⟨b, _, _, hstop⟩ := onRegisters_or_stops i
  · obtain ⟨u, hu, hfl⟩ := hi.exec_keeps_fl hcmp s
    obtain rfl : t = u := Host.Outcome.next.inj (h.symm.trans hu)
    exact hfl
  · obtain rfl : t = s.stop _ := Host.Outcome.next.inj (h.symm.trans (hstop s))
    exact State.stop_fl s _

/-- Settles O40: a step that changes `FL` entered no condition, so it ran an instruction, and that is a CMP. -/
theorem onlyCmpWritesTheFlags : Obligations.OnlyCmpWritesTheFlags := by
  refine ⟨fun i s t => exec_keeps_fl, fun s t h hfl => ?_⟩
  obtain ⟨_, ⟨c, rfl⟩ | ⟨i, hi, hx⟩⟩ := step_cases h
  · exact absurd (State.stop_fl s c) hfl
  · by_contra hno
    refine hfl (exec_keeps_fl (fun a b hcmp => hno ⟨a, b, ?_⟩) hx)
    rw [hi, hcmp]

end Sys2Proof.Machine
end

section
/-! An opcode byte in no row of the map (40_execution_loop.md rule R61, 60_exceptions.md rule R98): the fetch succeeds
where its bytes lie in memory, the lookup fails, and the machine halts. -/

namespace Sys2Proof.Machine

variable {s : State} {f : Fetched} {c : Condition}

/-- The operand count is the two high bits of the opcode byte, as a number. -/
theorem operandCount_eq_div (op : Byte) : operandCount op = op.toNat / 64 := by
  have hmask : (0b11000000 : Byte).toNat >>> 6 = 2 ^ 2 - 1 := rfl
  rw [operandCount, BitVec.toNat_ushiftRight, BitVec.toNat_and, Nat.shiftRight_and_distrib, hmask,
    Nat.and_two_pow_sub_one_eq_mod, Nat.shiftRight_eq_div_pow]
  omega

theorem lookup_eq_none_iff_not_mem {om : OpcodeMap} {op : Byte} :
    lookup om op = none ↔ op ∉ Mnemonic.all.map om := by
  simp [lookup_none, Mnemonic.mem_all]

/-- The fetch succeeds where the opcode and the operand bytes it fetches, two at most, lie in memory. -/
theorem exists_fetch_eq_ok (hpc : s.pc.toNat ≤ 255)
    (hfit : s.pc.toNat + min (operandCount (s.byteAt s.pc.toNat)) 2 ≤ 255) : ∃ f, fetch s = .ok f := by
  cases hf : fetch s with
  | ok f => exact ⟨f, rfl⟩
  | error c =>
    exfalso
    obtain ⟨hgt, _⟩ | ⟨hpc, hop, _⟩ | ⟨hpc, hop, _⟩ := fetch_error hf
    · omega
    · rw [hpc] at hfit
      omega
    · rw [hpc] at hfit
      omega

/-- A fetched opcode in no row of the map halts the machine. -/
theorem step_of_lookup_eq_none (hs : s.rs = .running) (hf : fetch s = .ok f) (hl : lookup opcodeMap f.op = none) :
    step s = .next (s.stop (.unrecognizedOpcode f.op)) := by
  simp only [step, loopBody_running opcodeMap hs, hf, hl]

/-- The same by the byte at `pc`. -/
theorem step_of_unrecognizedOpcode (hs : s.rs = .running) (hpc : s.pc.toNat ≤ 255)
    (hfit : s.pc.toNat + min (operandCount (s.byteAt s.pc.toNat)) 2 ≤ 255)
    (hop : s.byteAt s.pc.toNat ∉ Mnemonic.all.map opcodeMap) :
    step s = .next (s.stop (.unrecognizedOpcode (s.byteAt s.pc.toNat))) := by
  obtain ⟨f, hf⟩ := exists_fetch_eq_ok hpc hfit
  obtain ⟨_, hfop, _⟩ := fetch_ok hf
  rw [← hfop] at hop ⊢
  exact step_of_lookup_eq_none hs hf (lookup_eq_none_iff_not_mem.2 hop)

/-- Settles O10: the fetch succeeds and the lookup fails; after reset the byte at `pc` is 0, in no row of the map. -/
theorem unrecognizedOpcodeHaltsTheMachine : Obligations.UnrecognizedOpcodeHaltsTheMachine := by
  refine ⟨fun s hs hpc hfit hop => ?_, rfl, by decide,
    step_of_unrecognizedOpcode rfl (by decide) (by decide) (by decide)⟩
  rw [← operandCount_eq_div] at hfit
  exact step_of_unrecognizedOpcode hs hpc hfit hop

end Sys2Proof.Machine
end

section
/-! The end of a run at HLT (45_halt.md rule R93, 60_exceptions.md rule R97): no other instruction halts the machine,
and no failed fetch or lookup raises its cause. -/

namespace Sys2Proof.Machine

variable {s t : State} {i : Instr} {c : Condition}

/-- An instruction on registers other than HLT keeps `RS` or faults. -/
theorem OnRegisters.exec_keeps_rs_or_faults (hi : OnRegisters i) (hhlt : i ≠ .hlt) (s : State) :
    ∃ t, exec i s = .next t ∧ (t.rs = s.rs ∨ t.rs = .faulted) := by
  cases hi with
  | hlt => exact absurd rfl hhlt
  | push r => exact ⟨_, exec_push r s, .inl rfl⟩
  | pop r => exact ⟨_, exec_pop r s, .inl rfl⟩
  | call r =>
    by_cases hret : s.pc.toNat + 2 ≤ 255
    · exact ⟨_, exec_call_of_le r s hret, .inl rfl⟩
    · exact ⟨_, exec_call_of_gt r s (Nat.lt_of_not_le hret), .inr rfl⟩
  | jeq r => exact ⟨_, exec_jeq r s, .inl (jumpIf_rs _ r s)⟩
  | jne r => exact ⟨_, exec_jne r s, .inl (jumpIf_rs _ r s)⟩
  | mod r q =>
    by_cases hq : s.reg q = 0
    · exact ⟨_, exec_mod_of_eq r q s hq, .inr rfl⟩
    · exact ⟨_, exec_mod_of_ne r q s hq, .inl rfl⟩
  | ldi r | prn r | jump r => exact ⟨_, withReg_regByte r s _, .inl rfl⟩
  | add r q | mul r q | cmp r q | and r q | not r q | or r q | xor r q | shl r q | shr r q =>
    exact ⟨_, withRegs_regByte r q s _, .inl rfl⟩

/-- The instruction that takes a RUNNING machine to HALTED is HLT, whatever the operand bytes. -/
theorem eq_hlt_of_exec_halted (hs : s.rs = .running) (h : exec i s = .next t) (ht : t.rs = .halted) : i = .hlt := by
  by_contra hhlt
  have keeps_or_faults : ∃ u, exec i s = .next u ∧ (u.rs = s.rs ∨ u.rs = .faulted) := by
    obtain hi | ⟨b, _, _, hstop⟩ := onRegisters_or_stops i
    · exact hi.exec_keeps_rs_or_faults hhlt s
    · exact ⟨_, hstop s, .inr rfl⟩
  obtain ⟨u, hu, hrs⟩ := keeps_or_faults
  obtain rfl : t = u := Host.Outcome.next.inj (h.symm.trans hu)
  simp [hs, ht] at hrs

/-- The one condition a fetch raises is `AddressRange`. -/
theorem cause_of_fetch_error (hf : fetch s = .error c) : c.cause = .addressRange := by
  obtain ⟨_, rfl⟩ | ⟨_, _, rfl⟩ | ⟨_, _, rfl⟩ := fetch_error hf <;> rfl

/-- A step that ends normally ran a HLT. -/
theorem decode_eq_hlt_of_normalEnd (h : step s = .next t) (ht : t.NormalEnd) : decode s.codeBytes = .ok .hlt := by
  obtain ⟨hhalted, hcause⟩ := ht
  obtain ⟨hs, ⟨c, hf, rfl⟩ | ⟨f, _, _, rfl⟩ | ⟨f, m, hf, hl, hx⟩⟩ := loopBody_cases h
  · rw [State.stop_cause, cause_of_fetch_error hf] at hcause
    cases hcause
  · cases hcause
  · exact decode_codeBytes.2 ⟨f, m, hf, hl, eq_hlt_of_exec_halted hs hx hhalted⟩

/-- Settles O55: a decoded HLT stops the machine with its condition, and nothing else ends a step so. -/
theorem hltIsTheOnlyNormalEnd : Obligations.HltIsTheOnlyNormalEnd := by
  refine ⟨rfl, fun s t hs h => ?_⟩
  have stops (hi : decode s.codeBytes = .ok .hlt) : t = s.stop .hlt :=
    Host.Outcome.next.inj (h.symm.trans ((step_of_decode hs hi).trans (exec_hlt s)))
  refine ⟨⟨decode_eq_hlt_of_normalEnd h, fun hi => ?_⟩, stops⟩
  rw [stops hi]
  exact ⟨rfl, rfl⟩

end Sys2Proof.Machine
end

section
/-! What an execution does to the state, in nine forms. `effect` reads the state and says what is to be done, every
value already computed; `Effect.apply` does it and reads nothing but the field it changes. `exec_eq_apply_effect` ties
both to `exec`; frames, invariants and noninterference then follow form by form. -/

namespace Sys2Proof.Machine

/-- What an execution does to the state. -/
inductive Effect where
  /-- A condition is entered. -/
  | stop (c : Condition)
  /-- A register is written. -/
  | write (r : Reg) (v : Byte)
  /-- The flags are written. -/
  | flags (v : Byte)
  /-- A byte is emitted. -/
  | emit (v : Byte)
  /-- The stack pointer becomes `p`, and the cell there gets the byte `v`. -/
  | push (p v : Byte)
  /-- A push of the return address, and a jump. -/
  | call (p ret target : Byte)
  /-- A register gets the byte `v`, and then the stack pointer becomes `p`. -/
  | pop (r : Reg) (v p : Byte)
  /-- `pc` becomes a register's value. -/
  | jump (target : Byte)
  /-- A conditional jump is not taken. -/
  | skip

/-- The effect done to a state. -/
def Effect.apply (s : State) : Effect → State
  | .stop c => s.stop c
  | .write r v => (s.setReg r v).advance 3
  | .flags v => (s.setFl v).advance 3
  | .emit v => (s.emit v).advance 2
  | .push p v => ({ s.setSp p with mem := s.mem.set p.toNat v }).advance 2
  | .call p ret target => ({ s.setSp p with mem := s.mem.set p.toNat ret }).jumpTo target
  | .pop r v p => ((s.setReg r v).setSp p).advance 2
  | .jump target => s.jumpTo target
  | .skip => s.advance 2

/-- The effect on the register an operand byte names, or `RegisterIndex`. -/
def Effect.onReg (a : Byte) (e : Reg → Effect) : Effect :=
  match regOperand a with
  | .error c => .stop c
  | .ok r => e r

/-- The effect on the registers two operand bytes name, checked in order. -/
def Effect.onRegs (a b : Byte) (e : Reg → Reg → Effect) : Effect := .onReg a fun r => .onReg b (e r)

/-- What an instruction does when it runs in `s`. -/
def effect (s : State) : Instr → Effect
  | .hlt => .stop .hlt
  | .push a => .onReg a fun r => .push (s.sp - 1) ((decrementSp s).reg r)
  | .pop a => .onReg a fun r =>
    .pop r (s.byteAt s.sp.toNat) ((s.setReg r (s.byteAt s.sp.toNat)).sp + 1)
  | .prn a => .onReg a fun r => .emit (s.reg r)
  | .call a => .onReg a fun r =>
    if 255 < s.pc.toNat + 2 then .stop (.returnAddressRange (s.pc.toNat + 2))
    else .call (s.sp - 1) (BitVec.ofNat 8 (s.pc.toNat + 2)) ((decrementSp s).reg r)
  | .jump a => .onReg a fun r => .jump (s.reg r)
  | .jeq a => .onReg a fun r => if s.flagE then .jump (s.reg r) else .skip
  | .jne a => .onReg a fun r => if s.flagE then .skip else .jump (s.reg r)
  | .ldi a imm => .onReg a fun r => .write r imm
  | .add a b => .onRegs a b fun r q => .write r (s.reg r + s.reg q)
  | .mul a b => .onRegs a b fun r q => .write r (s.reg r * s.reg q)
  | .mod a b => .onRegs a b fun r q =>
    if s.reg q = 0 then .stop .modByZero else .write r (s.reg r % s.reg q)
  | .cmp a b => .onRegs a b fun r q => .flags (compareFlags (s.reg r) (s.reg q))
  | .and a b => .onRegs a b fun r q => .write r (s.reg r &&& s.reg q)
  | .not a b => .onRegs a b fun r q => .write r (~~~s.reg q)
  | .or a b => .onRegs a b fun r q => .write r (s.reg r ||| s.reg q)
  | .xor a b => .onRegs a b fun r q => .write r (s.reg r ^^^ s.reg q)
  | .shl a b => .onRegs a b fun r q => .write r (shiftLeft (s.reg r) (s.reg q))
  | .shr a b => .onRegs a b fun r q => .write r (shiftRight (s.reg r) (s.reg q))

variable {s t : State} {i : Instr}

@[simp] theorem Effect.onReg_regByte (r : Reg) (e : Reg → Effect) : onReg (regByte r) e = e r := by
  simp [onReg]

@[simp] theorem Effect.onRegs_regByte (r q : Reg) (e : Reg → Reg → Effect) :
    onRegs (regByte r) (regByte q) e = e r q := by
  simp [onRegs]

theorem Effect.onReg_of_gt {a : Byte} (ha : 7 < a.toNat) (e : Reg → Effect) :
    onReg a e = .stop (.registerIndex a) := by
  simp [onReg, regOperand_of_gt ha]

/-- A one-operand instruction has the effect that its handler has on every register. -/
theorem withReg_eq_apply_onReg {h : Reg → Except Condition State} {e : Reg → Effect}
    (hreg : ∀ r, withReg (regByte r) s h = .next ((e r).apply s)) (a : Byte) :
    withReg a s h = .next ((Effect.onReg a e).apply s) := by
  obtain ⟨r, rfl, _⟩ | ⟨ha, hstop⟩ := withReg_cases a s h
  · rw [hreg, Effect.onReg_regByte]
  · rw [hstop, Effect.onReg_of_gt ha]
    rfl

/-- The same for two operands. -/
theorem withRegs_eq_apply_onRegs {h : Reg → Reg → Except Condition State} {e : Reg → Reg → Effect}
    (hregs : ∀ r q, withRegs (regByte r) (regByte q) s h = .next ((e r q).apply s)) (a b : Byte) :
    withRegs a b s h = .next ((Effect.onRegs a b e).apply s) := by
  refine withReg_eq_apply_onReg (fun r => ?_) a
  obtain ⟨q, rfl, _⟩ | ⟨hb, _⟩ := regOperand_cases b
  · rw [Effect.onReg_regByte, ← hregs]
    rfl
  · rw [Effect.onReg_of_gt hb]
    exact withRegs_of_gt_right r hb s h

/-- Every execution answers the state with the instruction's effect done to it. -/
theorem exec_eq_apply_effect (i : Instr) (s : State) : exec i s = .next ((effect s i).apply s) := by
  cases i with
  | hlt => rfl
  | push a => refine withReg_eq_apply_onReg (fun r => ?_) a; exact exec_push r s
  | pop a => refine withReg_eq_apply_onReg (fun r => ?_) a; exact exec_pop r s
  | call a =>
    refine withReg_eq_apply_onReg (fun r => ?_) a
    split
    · next hret => exact exec_call_of_gt r s hret
    · next hret => exact exec_call_of_le r s (Nat.le_of_not_lt hret)
  | jeq a =>
    refine withReg_eq_apply_onReg (fun r => (exec_jeq r s).trans ?_) a
    cases s.flagE <;> rfl
  | jne a =>
    refine withReg_eq_apply_onReg (fun r => (exec_jne r s).trans ?_) a
    cases s.flagE <;> rfl
  | prn a | jump a | ldi a imm => exact withReg_eq_apply_onReg (fun r => withReg_regByte r s _) a
  | mod a b =>
    refine withRegs_eq_apply_onRegs (fun r q => ?_) a b
    split
    · next hq => exact exec_mod_of_eq r q s hq
    · next hq => exact exec_mod_of_ne r q s hq
  | add a b | mul a b | cmp a b | and a b | not a b | or a b | xor a b | shl a b | shr a b =>
    exact withRegs_eq_apply_onRegs (fun r q => withRegs_regByte r q s _) a b

/-- The one state an execution answers. -/
theorem eq_apply_effect (h : exec i s = .next t) : t = (effect s i).apply s :=
  Host.Outcome.next.inj (h.symm.trans (exec_eq_apply_effect i s))

theorem Effect.stop_of_onReg {a : Byte} {e : Reg → Effect} {c : Condition} (h : onReg a e = .stop c) :
    (7 < a.toNat ∧ c = .registerIndex a) ∨ ∃ r, e r = .stop c := by
  obtain ⟨r, rfl, _⟩ | ⟨ha, _⟩ := regOperand_cases a
  · exact .inr ⟨r, by rwa [onReg_regByte] at h⟩
  · rw [onReg_of_gt ha] at h
    exact .inl ⟨ha, (Effect.stop.inj h).symm⟩

theorem Effect.stop_of_onRegs {a b : Byte} {e : Reg → Reg → Effect} {c : Condition} (h : onRegs a b e = .stop c) :
    (∃ b : Byte, 7 < b.toNat ∧ c = .registerIndex b) ∨ ∃ r q, e r q = .stop c := by
  obtain ha | ⟨r, hr⟩ := stop_of_onReg h
  · exact .inl ⟨a, ha⟩
  · obtain hb | ⟨q, hq⟩ := stop_of_onReg hr
    · exact .inl ⟨b, hb⟩
    · exact .inr ⟨r, q, hq⟩

/-- The conditions an instruction raises, and when (60_exceptions.md rules R97, R99, R101 and R102). -/
theorem effect_eq_stop_cases {c : Condition} (h : effect s i = .stop c) :
    (i = .hlt ∧ c = .hlt) ∨ (∃ b : Byte, 7 < b.toNat ∧ c = .registerIndex b) ∨ c = .modByZero ∨
      (∃ a, i = .call a ∧ 255 < s.pc.toNat + 2 ∧ c = .returnAddressRange (s.pc.toNat + 2)) := by
  cases i with
  | hlt => exact .inl ⟨rfl, (Effect.stop.inj h).symm⟩
  | push a | pop a | prn a | jump a | ldi a imm =>
    obtain ha | ⟨r, hr⟩ := Effect.stop_of_onReg h
    · exact .inr (.inl ⟨a, ha⟩)
    · cases hr
  | jeq a | jne a =>
    obtain ha | ⟨r, hr⟩ := Effect.stop_of_onReg h
    · exact .inr (.inl ⟨a, ha⟩)
    · split at hr <;> cases hr
  | call a =>
    obtain ha | ⟨r, hr⟩ := Effect.stop_of_onReg h
    · exact .inr (.inl ⟨a, ha⟩)
    · split at hr
      · next hret => exact .inr (.inr (.inr ⟨a, rfl, hret, (Effect.stop.inj hr).symm⟩))
      · cases hr
  | mod a b =>
    obtain hb | ⟨r, q, hq⟩ := Effect.stop_of_onRegs h
    · exact .inr (.inl hb)
    · split at hq
      · exact .inr (.inr (.inl (Effect.stop.inj hq).symm))
      · cases hq
  | add a b | mul a b | cmp a b | and a b | not a b | or a b | xor a b | shl a b | shr a b =>
    obtain hb | ⟨r, q, hq⟩ := Effect.stop_of_onRegs h
    · exact .inr (.inl hb)
    · cases hq

end Sys2Proof.Machine
end

section
/-! The machine's invariant (10_state.md sections 2 to 4, 60_exceptions.md section 1), component by component: the
memory, `pc`, `FL`, and the condition record. -/

namespace Sys2Proof.Machine

variable {s t : State} {i : Instr} {c : Condition}

/-! ### Memory -/

/-- No effect takes memory out of its canonical form: a push stores inside it. -/
theorem Effect.wf_apply (h : s.mem.wf) (e : Effect) : (e.apply s).mem.wf := by
  cases e with
  | push p v | call p v => exact Memory.wf_set h (byte_lt_memSize p) v
  | _ => exact h

/-! ### The program counter -/

/-- The bytes of an instruction that a step runs all lie in memory (40_execution_loop.md rule R60). -/
theorem pc_add_length_le_of_decode (h : decode s.codeBytes = .ok i) : s.pc.toNat + i.length ≤ 256 := by
  obtain ⟨f, m, hf, hl, rfl⟩ := decode_codeBytes.1 h
  obtain ⟨hpc, _, hfirst, hsecond⟩ := fetch_ok hf
  rw [← lookup_some hl, operandCount_of_valid opcodeMap_valid] at hfirst hsecond
  rw [Instr.length, makeInstr_mnemonic]
  cases hm : m.format <;> simp only [hm, Format.operandCount] at hfirst hsecond ⊢ <;> omega

theorem regAddress_toNat_le (s : State) (a : Byte) : (regAddress s a).toNat ≤ 256 := by
  unfold regAddress
  split
  · rw [BitVec.toNat_setWidth]
    omega
  · decide

/-- A sequential advance inside memory does not wrap. -/
theorem pc_add_toNat_le {n : PcWord} (h : s.pc.toNat + n.toNat ≤ 256) : (s.pc + n).toNat ≤ 256 := by
  rw [BitVec.toNat_add]
  omega

/-- The table of the program counter stays in range for an instruction that lies in memory. -/
theorem pcAfter_toNat_le (t : State) (h : s.pc.toNat + i.length ≤ 256) : (pcAfter s t i).toNat ≤ 256 := by
  cases i with
  | hlt => exact Nat.le_of_add_right_le h
  | call a | jump a => exact regAddress_toNat_le t a
  | jeq a =>
    rw [pcAfter]
    split
    · exact regAddress_toNat_le s a
    · exact pc_add_toNat_le h
  | jne a =>
    rw [pcAfter]
    split
    · exact pc_add_toNat_le h
    · exact regAddress_toNat_le s a
  | _ => exact pc_add_toNat_le h

theorem pcInRange_of_exec (hpc : s.PcInRange) (hfit : s.pc.toNat + i.length ≤ 256) (h : exec i s = .next t) :
    t.PcInRange := by
  obtain ⟨c, rfl⟩ | ⟨_, heq⟩ := exec_stops_or_pc_eq_pcAfter h
  · exact hpc
  · rw [State.PcInRange, heq]
    exact pcAfter_toNat_le t hfit

/-! ### The flags -/

theorem compareFlags_cases (x y : Byte) :
    compareFlags x y = 0x01 ∨ compareFlags x y = 0x02 ∨ compareFlags x y = 0x04 := by
  unfold compareFlags
  split_ifs <;> simp

/-- CMP leaves `FL`, or sets exactly one flag. -/
theorem fl_of_exec_cmp {a b : Byte} (h : exec (.cmp a b) s = .next t) :
    t.fl = s.fl ∨ t.fl = 0x01 ∨ t.fl = 0x02 ∨ t.fl = 0x04 := by
  obtain ⟨r, q, rfl, rfl, _⟩ | ⟨_, hstop⟩ | ⟨_, _, _, hstop⟩ := withRegs_cases a b s fun r q =>
    .ok ((s.setFl (compareFlags (s.reg r) (s.reg q))).advance 3)
  · obtain rfl := Host.Outcome.next.inj (h.symm.trans (exec_cmp r q s))
    exact .inr (compareFlags_cases _ _)
  · obtain rfl := Host.Outcome.next.inj (h.symm.trans hstop)
    exact .inl rfl
  · obtain rfl := Host.Outcome.next.inj (h.symm.trans hstop)
    exact .inl rfl

theorem flLegal_of_exec (hfl : s.FlLegal) (h : exec i s = .next t) : t.FlLegal := by
  by_cases hcmp : ∃ a b, i = .cmp a b
  · obtain ⟨a, b, rfl⟩ := hcmp
    obtain hkept | hset := fl_of_exec_cmp h
    · rwa [State.FlLegal, hkept]
    · exact .inr hset
  · have hkept := exec_keeps_fl (fun a b hi => hcmp ⟨a, b, hi⟩) h
    rwa [State.FlLegal, hkept]

/-! ### The condition record -/

/-- An effect that enters no condition leaves the record. -/
theorem Effect.stops_or_keeps_record (e : Effect) (s : State) :
    (∃ c, e = .stop c) ∨ ((e.apply s).rs = s.rs ∧ (e.apply s).cause = s.cause ∧ (e.apply s).info = s.info) := by
  cases e with
  | stop c => exact .inl ⟨c, rfl⟩
  | _ => exact .inr ⟨rfl, rfl, rfl⟩

theorem recordLegal_of_fetch_error (hpc : s.PcInRange) (hf : fetch s = .error c) : (s.stop c).RecordLegal := by
  have legal (hlo : 254 ≤ s.pc.toNat) : (s.stop (.addressRange 256)).RecordLegal :=
    .inr (.inr (.inr (.inr (.inl ⟨rfl, rfl, rfl, hlo⟩))))
  obtain ⟨hgt, rfl⟩ | ⟨h255, _, rfl⟩ | ⟨h254, _, rfl⟩ := fetch_error hf
  · have h256 : s.pc.toNat = 256 := by omega
    rw [h256]
    exact legal (by omega)
  · exact legal (by omega)
  · exact legal (by omega)

theorem recordLegal_unrecognizedOpcode (s : State) (op : Byte) : (s.stop (.unrecognizedOpcode op)).RecordLegal :=
  .inr (.inr (.inl ⟨rfl, rfl, Nat.le_of_lt_succ op.isLt⟩))

theorem recordLegal_of_effect_eq_stop (hfit : s.pc.toNat + i.length ≤ 256) (h : effect s i = .stop c) :
    (s.stop c).RecordLegal := by
  obtain ⟨_, rfl⟩ | ⟨b, hb, rfl⟩ | rfl | ⟨a, rfl, hret, rfl⟩ := effect_eq_stop_cases h
  · exact .inr (.inl ⟨rfl, rfl, rfl⟩)
  · exact .inr (.inr (.inr (.inr (.inr (.inl ⟨rfl, rfl, hb, Nat.le_of_lt_succ b.isLt⟩)))))
  · exact .inr (.inr (.inr (.inl ⟨rfl, rfl, rfl⟩)))
  · have h254 : s.pc.toNat = 254 := by
      have : s.pc.toNat + 2 ≤ 256 := hfit
      omega
    exact .inr (.inr (.inr (.inr (.inr (.inr ⟨rfl, rfl, congrArg (· + 2) h254, h254⟩)))))

/-- An instruction that a RUNNING machine executes leaves the empty record, or enters one of its conditions. -/
theorem recordLegal_of_exec (hs : s.rs = .running) (hrec : s.RecordLegal) (hfit : s.pc.toNat + i.length ≤ 256)
    (h : exec i s = .next t) : t.RecordLegal := by
  have hempty : s.cause = .none ∧ s.info = 0 := by simpa [State.RecordLegal, hs] using hrec
  obtain ⟨hcause, hinfo⟩ := hempty
  obtain rfl := eq_apply_effect h
  obtain ⟨c, hc⟩ | ⟨hrs', hcause', hinfo'⟩ := (effect s i).stops_or_keeps_record s
  · rw [hc]
    exact recordLegal_of_effect_eq_stop hfit hc
  · exact .inl ⟨hrs'.trans hs, hcause'.trans hcause, hinfo'.trans hinfo⟩

/-! ### The invariant -/

theorem State.Inv.stop (h : s.Inv) (hrec : (s.stop c).RecordLegal) : (s.stop c).Inv := by
  obtain ⟨hwf, hpc, hfl, _⟩ := h
  exact ⟨hwf, hpc, hfl, hrec⟩

/-- An instruction that lies in memory keeps the invariant. -/
theorem State.Inv.exec (h : s.Inv) (hs : s.rs = .running) (hfit : s.pc.toNat + i.length ≤ 256)
    (hx : exec i s = .next t) : t.Inv := by
  obtain ⟨hwf, hpc, hfl, hrec⟩ := h
  refine ⟨?_, pcInRange_of_exec hpc hfit hx, flLegal_of_exec hfl hx, recordLegal_of_exec hs hrec hfit hx⟩
  rw [eq_apply_effect hx]
  exact Effect.wf_apply hwf _

/-- Settles O52: a failed fetch and a failed lookup change the record alone, to a row of the table, and an
instruction that was fetched keeps each component. -/
theorem everyStepKeepsTheMachineInvariant : Obligations.EveryStepKeepsTheMachineInvariant := by
  intro s t hinv h
  have ⟨_, hpc, _⟩ := hinv
  obtain ⟨hs, ⟨c, hf, rfl⟩ | ⟨f, _, _, rfl⟩ | ⟨f, m, hf, hl, hx⟩⟩ := loopBody_cases h
  · exact hinv.stop (recordLegal_of_fetch_error hpc hf)
  · exact hinv.stop (recordLegal_unrecognizedOpcode s f.op)
  · exact hinv.exec hs (pc_add_length_le_of_decode (decode_codeBytes.2 ⟨f, m, hf, hl, rfl⟩)) hx

/-- Settles O53: memory is empty, and the other components are constants. -/
theorem resetMeetsTheMachineInvariant : Obligations.ResetMeetsTheMachineInvariant :=
  ⟨Memory.wf_nil, by decide, .inl rfl, .inl ⟨rfl, rfl, rfl⟩⟩

end Sys2Proof.Machine
end

section
/-! Decoding and encoding under every valid opcode map (30_encoding.md sections 1, 3 and 4), and the loop body on the
bytes of an encoded instruction. -/

namespace Sys2Proof

variable {om : OpcodeMap} {i : Instr}

/-- The mnemonic and the operand bytes of an instruction give it back, whatever follows them. -/
theorem makeInstr_mnemonic_operands (i : Instr) (rest : List Byte) :
    makeInstr i.mnemonic ((i.operands ++ rest).getD 0 0) ((i.operands ++ rest).getD 1 0) = i := by
  cases i <;> rfl

/-- An instruction depends on the operand bytes that its format has, and on no other. -/
theorem makeInstr_congr {m : Mnemonic} {a a' b b' : Byte} (ha : 1 ≤ m.format.operandCount → a = a')
    (hb : 2 ≤ m.format.operandCount → b = b') : makeInstr m a b = makeInstr m a' b' := by
  cases m with
  | hlt => rfl
  | push | pop | prn | call | jump | jeq | jne => rw [ha (by decide)]; rfl
  | ldi | add | mul | mod | cmp | and | not | or | xor | shl | shr => rw [ha (by decide), hb (by decide)]

/-- Settles O4: the lookup inverts the map, and the operand bytes give the instruction back. -/
theorem decodeInvertsEncodeForEveryOpcodeMap : Obligations.DecodeInvertsEncodeForEveryOpcodeMap := by
  intro om hom i rest
  have hlen : ¬ (i.operands ++ rest).length < i.mnemonic.format.operandCount := by
    rw [List.length_append, i.operands_length]
    omega
  simp only [encodeWith, List.cons_append, decodeWith, lookup_of_valid hom, if_neg hlen, makeInstr_mnemonic_operands]

theorem length_encodeWith (om : OpcodeMap) (i : Instr) : (encodeWith om i).length = i.length := by
  rw [encodeWith, List.length_cons, i.operands_length, Instr.length, Nat.add_comm]

theorem Format.operandCount_le_two (f : Format) : f.operandCount ≤ 2 := by
  cases f <;> decide

/-- What the decoder accepts: an opcode byte of the map and the operand bytes of its row. -/
theorem decodeWith_eq_ok_cases {bytes : List Byte} (h : decodeWith om bytes = .ok i) :
    ∃ m rest, bytes = om m :: rest ∧ m.format.operandCount ≤ rest.length ∧
      i = makeInstr m (rest.getD 0 0) (rest.getD 1 0) := by
  cases bytes with
  | nil => cases h
  | cons op rest =>
    cases hl : lookup om op with
    | none => simp [decodeWith, hl] at h
    | some m =>
      simp only [decodeWith, hl] at h
      split at h
      · cases h
      · next hlen =>
        exact ⟨m, rest, by rw [lookup_some hl], Nat.le_of_not_lt hlen, (Except.ok.inj h).symm⟩

/-- The first bytes of a list, two at most, taken through its two first entries. -/
theorem take_getD_getD {rest : List Byte} {n : Nat} (hn : n ≤ 2) (hlen : n ≤ rest.length) :
    [rest.getD 0 0, rest.getD 1 0].take n = rest.take n := by
  match n, rest with
  | 0, _ => rfl
  | 1, _ :: _ => rfl
  | 2, _ :: _ :: _ => rfl

/-- Settles O5: the accepted bytes are the opcode and the operand bytes of the instruction made from them. -/
theorem decodedBytesBeginWithTheirEncoding : Obligations.DecodedBytesBeginWithTheirEncoding := by
  intro om _ bytes i h
  refine ⟨?_, length_encodeWith om i⟩
  obtain ⟨m, rest, rfl, hlen, rfl⟩ := decodeWith_eq_ok_cases h
  rw [encodeWith, makeInstr_mnemonic, Machine.makeInstr_operands, take_getD_getD m.format.operandCount_le_two hlen]
  exact List.cons_prefix_cons.2 ⟨rfl, List.take_prefix _ rest⟩

/-- No row of a valid map has more than two operand bytes (30_encoding.md rule R45). -/
theorem lookup_eq_none_of_two_lt_operandCount (hom : om.Valid) {op : Byte} (h : 2 < operandCount op) :
    lookup om op = none := by
  rw [lookup_none]
  rintro m rfl
  rw [operandCount_of_valid hom] at h
  exact absurd m.format.operandCount_le_two (Nat.not_le.2 h)

theorem isSome_lookup_iff {op : Byte} : (lookup om op).isSome ↔ ∃ m, om m = op := by
  simp [Option.isSome_iff_ne_none, lookup_none]

/-- The byte values that a valid map recognizes are its rows, each once. -/
theorem filter_isSome_lookup_perm (hom : om.Valid) :
    ((List.range 256).filter fun k => (lookup om (BitVec.ofNat 8 k)).isSome).Perm
      (Mnemonic.all.map fun m => (om m).toNat) := by
  have hrows : (Mnemonic.all.map fun m => (om m).toNat).Nodup :=
    List.Nodup.map_on (fun m hm m' hm' h => hom.1 m hm m' hm' (BitVec.eq_of_toNat_eq h)) (by decide)
  refine (List.perm_ext_iff_of_nodup (List.nodup_range.filter _) hrows).2 fun k => ?_
  simp only [List.mem_filter, List.mem_range, isSome_lookup_iff, List.mem_map, Mnemonic.mem_all, true_and]
  constructor
  · rintro ⟨hk, m, hm⟩
    exact ⟨m, by rw [hm, BitVec.toNat_ofNat, Nat.mod_eq_of_lt hk]⟩
  · rintro ⟨m, rfl⟩
    exact ⟨(om m).isLt, m, by rw [BitVec.ofNat_toNat, BitVec.setWidth_eq]⟩

/-- Every valid map leaves 237 byte values unrecognized (30_encoding.md rule R51). -/
theorem length_filter_isNone_lookup (hom : om.Valid) :
    ((List.range 256).filter fun k => (lookup om (BitVec.ofNat 8 k)).isNone).length = 237 := by
  have hsplit := (List.range 256).length_eq_length_filter_add fun k => (lookup om (BitVec.ofNat 8 k)).isSome
  have hrows := (filter_isSome_lookup_perm hom).length_eq
  simp only [Option.not_isSome, List.length_range] at hsplit
  rw [List.length_map, show Mnemonic.all.length = 19 from rfl] at hrows
  omega

/-- Settles O2: the constraints hold row by row, and what they imply for any map gives the count and the bytes from
0xC0 on. -/
theorem defaultOpcodeMapMeetsItsConstraints : Obligations.DefaultOpcodeMapMeetsItsConstraints := by
  refine ⟨opcodeMap_valid, length_filter_isNone_lookup opcodeMap_valid, fun k hk hlo => ?_⟩
  rw [lookup_eq_none_of_two_lt_operandCount opcodeMap_valid]
  · rfl
  · rw [Machine.operandCount_eq_div, BitVec.toNat_ofNat]
    have := List.mem_range.1 hk
    omega

/-- Settles O3: the decoder run on each of the words. -/
theorem sampleWordsDecodeAsWritten : Obligations.SampleWordsDecodeAsWritten :=
  ⟨rfl, rfl, rfl, rfl, rfl, rfl, rfl, rfl, rfl, rfl, rfl, rfl, rfl⟩

end Sys2Proof

namespace Sys2Proof.Machine

/-- Settles O6: a decodable list of bytes at `pc` is what the fetch and the lookup find. -/
theorem stepRunsTheDecodedInstruction : Obligations.StepRunsTheDecodedInstruction :=
  fun _ _ hs hi => step_of_decode hs hi

/-- Settles O7: the fetch succeeds, the lookup finds the mnemonic, and the operand bytes fetched are those of the
instruction. -/
theorem encodedInstructionRunsUnderEveryOpcodeMap : Obligations.EncodedInstructionRunsUnderEveryOpcodeMap := by
  intro om hom i s hs hfit hbytes
  have hop : s.byteAt s.pc.toNat = om i.mnemonic := hbytes 0 _ rfl
  have hcount : operandCount (s.byteAt s.pc.toNat) = i.mnemonic.format.operandCount := by
    rw [hop, operandCount_of_valid hom]
  have operand {k : Nat} (hk : k < i.mnemonic.format.operandCount) :
      s.byteAt (s.pc.toNat + (k + 1)) = i.operands.getD k 0 := by
    have hlt : k < i.operands.length := by rwa [i.operands_length]
    rw [List.getD_eq_getElem _ _ hlt]
    exact hbytes (k + 1) _ (List.getElem?_eq_getElem hlt)
  rw [Instr.length] at hfit
  obtain ⟨f, hf⟩ := exists_fetch_eq_ok (s := s) (by omega) (by omega)
  obtain ⟨_, hfop, hfirst, hsecond⟩ := fetch_ok hf
  rw [hfop, hcount] at hfirst hsecond
  have hmake : makeInstr i.mnemonic f.a f.b = i := by
    refine (makeInstr_congr (fun h => ?_) (fun h => ?_)).trans (makeInstr_mnemonic_operands i [])
    · rw [(hfirst h).2, List.append_nil]
      exact operand h
    · rw [(hsecond h).2, List.append_nil]
      exact operand h
  simp only [loopBody_running om hs, hf, hfop, hop, lookup_of_valid hom, hmake]

end Sys2Proof.Machine
end

section
/-! Steps and their ends (40_execution_loop.md sections 2 and 3, 60_exceptions.md section 2): a RUNNING machine always
has a step, what a fetch beyond the last cell does, and that a condition changes the record alone. -/

namespace Sys2Proof.Machine

variable {s t : State} {a : Nat} {v : Byte}

theorem step_of_not_running (hs : s.rs ≠ .running) : step s = .fault .notRunning := loopBody_not_running opcodeMap hs

/-- What a step of a RUNNING machine does: a failed fetch and a failed lookup enter their conditions, a fetched
instruction has its effect. -/
def stepEffect (s : State) : Effect :=
  match fetch s with
  | .error c => .stop c
  | .ok f =>
    match lookup opcodeMap f.op with
    | none => .stop (.unrecognizedOpcode f.op)
    | some m => effect s (makeInstr m f.a f.b)

theorem step_eq_apply_stepEffect (hs : s.rs = .running) : step s = .next ((stepEffect s).apply s) := by
  rw [stepEffect]
  cases hf : fetch s with
  | error c => exact step_of_fetch_error hs hf
  | ok f =>
    cases hl : lookup opcodeMap f.op with
    | none =>
      simp only [hl]
      exact step_of_lookup_eq_none hs hf hl
    | some m =>
      have hi := decode_codeBytes.2 ⟨f, m, hf, hl, rfl⟩
      simp only [hl]
      exact (step_of_decode hs hi).trans (exec_eq_apply_effect _ s)

/-- The one state a step answers. -/
theorem eq_apply_stepEffect (h : step s = .next t) : s.rs = .running ∧ t = (stepEffect s).apply s := by
  obtain ⟨hs, _⟩ := step_cases h
  exact ⟨hs, Host.Outcome.next.inj (h.symm.trans (step_eq_apply_stepEffect hs))⟩

/-- Settles O13: a RUNNING machine does the effect of its step. -/
theorem runningMachineStepsAndStoppedMachineDoesNot : Obligations.RunningMachineStepsAndStoppedMachineDoesNot :=
  fun _ => ⟨fun hs => ⟨_, step_eq_apply_stepEffect hs⟩, step_of_not_running⟩

/-- Settles O12: the step entered a condition, for one that completes an instruction stays RUNNING. -/
theorem conditionsArePrecise : Obligations.ConditionsArePrecise := by
  intro s t _ h hstopped
  obtain ⟨c, rfl⟩ | ⟨hrun, _⟩ := step_stops_or_pc_eq_pcAfter h
  · rfl
  · exact absurd hrun hstopped

/-! ### Fetches -/

theorem fetch_of_pc_beyond (h : 255 < s.pc.toNat) : fetch s = .error (.addressRange s.pc.toNat) := by
  rw [fetch, memRead_of_ge s h]
  rfl

/-- One cell before the last, the fetch of an opcode with two operand bytes or the count 3 fails at the second one. -/
theorem fetch_of_second_operand_beyond (hpc : s.pc.toNat = 254) (hop : 2 ≤ operandCount (s.byteAt 254)) :
    fetch s = .error (.addressRange 256) := by
  cases hf : fetch s with
  | ok f =>
    obtain ⟨_, hfop, _, hsecond⟩ := fetch_ok hf
    obtain ⟨hfit, _⟩ := hsecond (by rwa [hfop, hpc])
    omega
  | error c =>
    obtain ⟨hgt, _⟩ | ⟨h255, _⟩ | ⟨_, _, rfl⟩ := fetch_error hf
    · omega
    · omega
    · rfl

/-- Settles O9: in each of the first three places the fetch fails; at 253 or below the count 3 is fetched, and is in
no row of the map. -/
theorem fetchBeyondMemoryRaisesAddressRange : Obligations.FetchBeyondMemoryRaisesAddressRange := by
  refine fun s hs => ⟨fun hpc => ?opcode, fun hpc hop => ?first, fun hpc hop => ?second, fun hpc hop => ?fetched⟩
  case opcode => exact step_of_fetch_error hs (fetch_of_pc_beyond hpc)
  case first =>
    rw [← operandCount_eq_div] at hop
    exact step_of_fetch_error hs (fetch_of_operand_beyond hpc hop)
  case second =>
    rw [← operandCount_eq_div] at hop
    exact step_of_fetch_error hs (fetch_of_second_operand_beyond hpc hop)
  case fetched =>
    rw [← operandCount_eq_div] at hop
    have hnone : lookup opcodeMap (s.byteAt s.pc.toNat) = none :=
      lookup_eq_none_of_two_lt_operandCount opcodeMap_valid (by omega)
    exact step_of_unrecognizedOpcode hs (by omega) (by omega) (lookup_eq_none_iff_not_mem.1 hnone)

/-! ### Data accesses -/

/-- Settles O45: both accesses raise, and the condition entered changes the record alone. -/
theorem addressesOver255RaiseAddressRange : Obligations.AddressesOver255RaiseAddressRange := by
  intro s a v ha
  refine ⟨memRead_of_ge s ha, memWrite_of_ge s v ha, ?_⟩
  rw [memWrite_of_ge s v ha]
  rfl

theorem byteAt_of_memWrite (h : memWrite s a v = .ok t) : t.byteAt a = v := by
  unfold memWrite at h
  split at h
  · obtain rfl := Except.ok.inj h
    exact Memory.get_set_self s.mem a v
  · cases h

/-- Settles O48: a fetch that succeeds reads its bytes from their cells, and the one written holds `v`. -/
theorem storedByteIsSeenByTheNextFetch : Obligations.StoredByteIsSeenByTheNextFetch := by
  intro s t a v f hw hf
  have hcell := byteAt_of_memWrite hw
  obtain ⟨_, hop, hfirst, hsecond⟩ := fetch_ok hf
  refine ⟨?_, ?_, ?_⟩
  · rintro rfl
    exact hop.trans hcell
  · rintro rfl hcount
    exact (hfirst hcount).2.trans hcell
  · rintro rfl hcount
    exact (hsecond hcount).2.trans hcell

end Sys2Proof.Machine
end

section
/-! PRN, PUSH, POP, CALL, NOT, SHL, SHR, MOD and HLT (41_load_and_output.md to 45_halt.md): what each does on registers,
in plain numbers. -/

namespace Sys2Proof.Machine

open Sys2Proof.Claims

variable {s t : State}

/-- Settles O15: PRN is a two-byte instruction that emits its register. -/
theorem prnAppendsTheRegisterToTheOutput : Obligations.PrnAppendsTheRegisterToTheOutput :=
  ⟨formatF1_of_f1 (m := .prn) rfl, fun ra s => exec_prn ra s⟩

/-! ### The stack -/

/-- The stack pointer one below, as a byte. -/
theorem spBelow_eq (s : State) : spBelow s = s.sp - 1 := by
  apply BitVec.eq_of_toNat_eq
  rw [spBelow, BitVec.toNat_ofNat, BitVec.toNat_sub, Nat.mod_mod, Nat.add_comm]
  rfl

/-- A byte one higher, as a number. -/
theorem ofNat_succ_mod (v : Byte) : BitVec.ofNat 8 ((v.toNat + 1) % 256) = v + 1 := by
  apply BitVec.eq_of_toNat_eq
  rw [BitVec.toNat_ofNat, BitVec.toNat_add, Nat.mod_mod]
  rfl

/-- A register read after a write to another or the same one. -/
theorem State.reg_setReg (s : State) (r q : Reg) (v : Byte) : (s.setReg r v).reg q = if q = r then v else s.reg q := by
  split
  · next h => rw [h, State.reg_setReg_self]
  · next h => exact State.reg_setReg_of_ne s r v h

/-- A register read after the decrement: the stack pointer is then one lower. -/
theorem decrementSp_reg (s : State) (r : Reg) : (decrementSp s).reg r = if r = 7 then spBelow s else s.reg r := by
  rw [spBelow_eq]
  exact State.reg_setReg s 7 r _

theorem sp_setReg (s : State) (r : Reg) (v : Byte) : (s.setReg r v).sp = if r = 7 then v else s.sp := by
  simp only [eq_comm (a := r)]
  exact State.reg_setReg s r 7 v

/-- Settles O16: PUSH is a two-byte instruction; its cell and its byte are read after the decrement. -/
theorem pushStoresBelowTheStackPointer : Obligations.PushStoresBelowTheStackPointer := by
  refine ⟨formatF1_of_f1 (m := .push) rfl, fun ra s => ?_⟩
  rw [exec_push, decrementSp_reg, ← spBelow_eq, decrementSp, ← spBelow_eq]
  rfl

/-- Settles O17: POP is a two-byte instruction; the increment comes after the load, so for register 7 it is the
loaded byte that is incremented. -/
theorem popLoadsFromTheStackPointer : Obligations.PopLoadsFromTheStackPointer := by
  refine ⟨formatF1_of_f1 (m := .pop) rfl, fun ra s => ?_⟩
  rw [exec_pop, ofNat_succ_mod, ofNat_succ_mod]
  by_cases hra : ra = 7
  · subst hra
    rw [if_pos rfl, sp_setReg, if_pos rfl, ← Regs.set_set_self 7 (s.byteAt s.sp.toNat)]
    rfl
  · rw [if_neg hra, sp_setReg, if_neg hra]
    rfl

/-- Settles O18: CALL is a two-byte instruction that pushes the return address where it is a byte, and else faults. -/
theorem callPushesTheReturnAddress : Obligations.CallPushesTheReturnAddress := by
  refine ⟨formatF1_of_f1 (m := .call) rfl, fun ra s hret => ?_, fun ra s hret => exec_call_of_gt ra s hret⟩
  rw [exec_call_of_le ra s hret, State.jumpTo_eq, decrementSp_reg, ← spBelow_eq, decrementSp, ← spBelow_eq]
  rfl

/-! ### The ALU -/

/-- Settles O28: the complement of a byte, as a number, is 255 minus it. -/
theorem notComplementsTheSecondOperand : Obligations.NotComplementsTheSecondOperand := by
  refine ⟨formatF2R_of_f2r (m := .not) rfl, fun ra rb s => ?_⟩
  rw [exec_not, aluWrite_eq_ofNat BitVec.toNat_not]

/-- Settles O29: a left shift multiplies by the power of two and keeps the low 8 bits. -/
theorem shlShiftsByTheSecondOperand : Obligations.ShlShiftsByTheSecondOperand := by
  refine ⟨formatF2R_of_f2r (m := .shl) rfl, fun ra rb s => ?_⟩
  have hshift : (shiftLeft (s.reg ra) (s.reg rb)).toNat = (s.reg ra).toNat * 2 ^ (s.reg rb).toNat % 256 := by
    rw [shiftLeft, BitVec.toNat_shiftLeft, Nat.shiftLeft_eq]
  rw [exec_shl, aluWrite_eq_ofNat hshift]

/-- Settles O30: a right shift divides by the power of two. -/
theorem shrShiftsInZeros : Obligations.ShrShiftsInZeros := by
  refine ⟨formatF2R_of_f2r (m := .shr) rfl, fun ra rb s => ?_⟩
  have hshift : (shiftRight (s.reg ra) (s.reg rb)).toNat = (s.reg ra).toNat / 2 ^ (s.reg rb).toNat := by
    rw [shiftRight, BitVec.toNat_ushiftRight, Nat.shiftRight_eq_div_pow]
  rw [exec_shr, aluWrite_eq_ofNat hshift]

/-- Settles O31: the remainder of two bytes, as a number, is the remainder of the numbers; a zero divisor faults. -/
theorem modLeavesTheRemainderOrFaults : Obligations.ModLeavesTheRemainderOrFaults := by
  refine ⟨formatF2R_of_f2r (m := .mod) rfl, fun ra rb s hne => ?_, fun ra rb s heq => exec_mod_of_eq ra rb s heq⟩
  rw [exec_mod_of_ne ra rb s hne, aluWrite_eq_ofNat (BitVec.toNat_umod)]

/-! ### HLT -/

/-- In the last cell only an instruction without operands is fetched, and HLT is the one. -/
theorem eq_hlt_of_fetch_last {f : Fetched} {m : Mnemonic} (hpc : s.pc.toNat = 255) (hf : fetch s = .ok f)
    (hl : lookup opcodeMap f.op = some m) : m = .hlt := by
  obtain ⟨_, _, hfirst, _⟩ := fetch_ok hf
  rw [← lookup_some hl, operandCount_of_valid opcodeMap_valid] at hfirst
  have hcount : ¬ 1 ≤ m.format.operandCount := fun h => by
    have := (hfirst h).1
    omega
  cases m with
  | hlt => rfl
  | _ => exact absurd (by decide) hcount

theorem exists_codeBytes_eq_cons (hpc : s.pc.toNat ≤ 255) : ∃ rest, s.codeBytes = s.byteAt s.pc.toNat :: rest := by
  obtain hle | heq : s.pc.toNat ≤ 254 ∨ s.pc.toNat = 255 := by omega
  · obtain ⟨rest, hbytes⟩ := exists_codeBytes_eq_cons_cons hle
    exact ⟨_, hbytes⟩
  · exact ⟨[], by rw [codeBytes_of_eq_255 heq, heq]⟩

/-- HLT is encoded, decoded and fetched as a one-byte instruction. -/
theorem formatF0_hlt : FormatF0 0x01 .hlt := by
  refine ⟨rfl, fun rest => rfl, fun s hs hpc hop => ?_,
    fun s hs hpc => step_of_fetch_error hs (fetch_of_pc_beyond hpc)⟩
  obtain ⟨rest, hbytes⟩ := exists_codeBytes_eq_cons hpc
  refine step_of_decode hs ?_
  rw [hbytes, hop]
  rfl

/-- Settles O32: HLT enters its condition; in the last cell every other way to step enters another one. -/
theorem hltHaltsAtItsOwnAddress : Obligations.HltHaltsAtItsOwnAddress := by
  refine ⟨formatF0_hlt, rfl, rfl, fun s => ⟨exec_hlt s, step_of_not_running (by simp)⟩, fun s t hs hpc h hend => ?_⟩
  obtain ⟨_, ⟨c, hf, rfl⟩ | ⟨f, _, _, rfl⟩ | ⟨f, m, hf, hl, _⟩⟩ := loopBody_cases h
  · rw [State.stop_cause, cause_of_fetch_error hf] at hend
    exact absurd hend (by simp [c.runState_ne_running])
  · exact absurd hend (by simp [Condition.cause, Condition.runState])
  · obtain rfl := eq_hlt_of_fetch_last hpc hf hl
    obtain ⟨_, hop, _⟩ := fetch_ok hf
    rw [hpc] at hop
    exact hop.symm.trans (lookup_some hl).symm

end Sys2Proof.Machine
end

section
/-! Frames (10_state.md section 1, 20_memory.md section 1, 41_load_and_output.md to 45_halt.md): what an instruction
leaves unchanged. Each instruction is looked at once, for the form of its effect; the frames go form by form. -/

namespace Sys2Proof.Machine

open Sys2Proof.Claims

variable {s t : State} {i : Instr} {e : Effect} {a : Byte}

/-! ### The form of an instruction's effect -/

/-- The registers that an effect writes. -/
def Effect.writes : Effect → List Reg
  | .write r _ => [r]
  | .push _ _ | .call _ _ _ => [7]
  | .pop r _ _ => [r, 7]
  | .stop _ | .flags _ | .emit _ | .jump _ | .skip => []

/-- The forms of effect that an instruction can have when it runs in `s`, with the values that the frames speak of. -/
inductive Effect.FormOf (s : State) : Instr → Effect → Prop where
  | stop {i : Instr} {c : Condition} : FormOf s i (.stop c)
  | write {i : Instr} {r : Reg} {v : Byte} (h : writtenRegs i = [r.val]) : FormOf s i (.write r v)
  | flags {a b v : Byte} : FormOf s (.cmp a b) (.flags v)
  | emit {r : Reg} : FormOf s (.prn (regByte r)) (.emit (s.reg r))
  | push {a v : Byte} : FormOf s (.push a) (.push (s.sp - 1) v)
  | call {a ret target : Byte} : FormOf s (.call a) (.call (s.sp - 1) ret target)
  | pop {r : Reg} {v p : Byte} : FormOf s (.pop (regByte r)) (.pop r v p)
  | jump {i : Instr} {target : Byte} : FormOf s i (.jump target)
  | skip {i : Instr} : FormOf s i .skip

theorem Effect.FormOf.onReg {k : Reg → Effect} (h : ∀ r, a = regByte r → FormOf s i (k r)) :
    FormOf s i (.onReg a k) := by
  obtain ⟨r, rfl, _⟩ | ⟨ha, _⟩ := regOperand_cases a
  · rw [onReg_regByte]
    exact h r rfl
  · rw [onReg_of_gt ha]
    exact .stop

theorem Effect.FormOf.onRegs {b : Byte} {k : Reg → Reg → Effect}
    (h : ∀ r q, a = regByte r → FormOf s i (k r q)) : FormOf s i (.onRegs a b k) :=
  .onReg fun r hr => .onReg fun q _ => h r q hr

/-- Every instruction has an effect of its form. -/
theorem formOf_effect (s : State) (i : Instr) : Effect.FormOf s i (effect s i) := by
  cases i with
  | hlt => exact .stop
  | push a => exact .onReg fun _ _ => .push
  | pop a => exact .onReg fun _ ha => ha ▸ .pop
  | prn a => exact .onReg fun _ ha => ha ▸ .emit
  | call a =>
    refine .onReg fun _ _ => ?_
    split
    · exact .stop
    · exact .call
  | jump a => exact .onReg fun _ _ => .jump
  | jeq a =>
    refine .onReg fun _ _ => ?_
    split
    · exact .jump
    · exact .skip
  | jne a =>
    refine .onReg fun _ _ => ?_
    split
    · exact .skip
    · exact .jump
  | ldi a imm => exact .onReg fun r ha => .write (by simp [ha, writtenRegs])
  | cmp a b => exact .onRegs fun _ _ _ => .flags
  | mod a b =>
    refine .onRegs fun r _ ha => ?_
    split
    · exact .stop
    · exact .write (by simp [ha, writtenRegs])
  | add a b | mul a b | and a b | not a b | or a b | xor a b | shl a b | shr a b =>
    exact .onRegs fun r _ ha => .write (by simp [ha, writtenRegs])

/-- What an execution answers: the starting state with an effect of the instruction's form done to it. -/
theorem exists_formOf_of_exec (h : exec i s = .next t) : ∃ e, Effect.FormOf s i e ∧ t = e.apply s :=
  ⟨_, formOf_effect s i, eq_apply_effect h⟩

/-! ### What an instruction leaves unchanged -/

theorem Effect.reg_apply_of_not_mem {q : Reg} (h : q ∉ e.writes) (s : State) : (e.apply s).reg q = s.reg q := by
  cases e with
  | write r v => exact State.reg_setReg_of_ne s r v (List.ne_of_not_mem_cons h)
  | push p v | call p v => exact State.reg_setReg_of_ne s 7 p (List.ne_of_not_mem_cons h)
  | pop r v p =>
    obtain ⟨hr, h7⟩ : q ≠ r ∧ q ≠ 7 := by simpa [writes] using h
    exact (State.reg_setReg_of_ne (s.setReg r v) 7 p h7).trans (State.reg_setReg_of_ne s r v hr)
  | _ => rfl

/-- An effect writes the registers of the table's write column, and no others (10_state.md rule R13). -/
theorem Effect.FormOf.val_mem_writtenRegs (he : FormOf s i e) {q : Reg} (hq : q ∈ e.writes) :
    q.val ∈ writtenRegs i := by
  cases he with
  | write h => simp_all [writes]
  | push | call => simp_all [writes, writtenRegs]
  | pop =>
    obtain rfl | rfl : q = _ ∨ q = 7 := by simpa [writes] using hq
    · simp [writtenRegs]
    · simp [writtenRegs]
  | _ => cases hq

theorem exec_keeps_reg (h : exec i s = .next t) {r : Reg} (hr : r.val ∉ writtenRegs i) : t.reg r = s.reg r := by
  obtain ⟨e, he, rfl⟩ := exists_formOf_of_exec h
  exact Effect.reg_apply_of_not_mem (fun hmem => hr (he.val_mem_writtenRegs hmem)) s

theorem exec_keeps_out (hprn : ∀ a, i ≠ .prn a) (h : exec i s = .next t) : t.out = s.out := by
  obtain ⟨e, he, rfl⟩ := exists_formOf_of_exec h
  cases he with
  | emit => exact absurd rfl (hprn _)
  | _ => rfl

theorem exec_keeps_mem (hpush : ∀ a, i ≠ .push a) (hcall : ∀ a, i ≠ .call a) (h : exec i s = .next t) :
    t.mem = s.mem := by
  obtain ⟨e, he, rfl⟩ := exists_formOf_of_exec h
  cases he with
  | push => exact absurd rfl (hpush _)
  | call => exact absurd rfl (hcall _)
  | _ => rfl

theorem byteAt_congr (h : t.mem = s.mem) (addr : Nat) : t.byteAt addr = s.byteAt addr := by
  rw [State.byteAt, State.byteAt, h]

/-- Every instruction but HLT leaves the condition record, or faults and leaves registers and `pc`. -/
theorem recordKeptOrStopped_of_exec (hhlt : i ≠ .hlt) (h : exec i s = .next t) : RecordKeptOrStopped s t := by
  obtain rfl := eq_apply_effect h
  obtain ⟨c, hc⟩ | hkept := (effect s i).stops_or_keeps_record s
  · have hfault : c.runState = .faulted := by
      obtain ⟨hi, _⟩ | ⟨b, _, rfl⟩ | rfl | ⟨_, _, _, rfl⟩ := effect_eq_stop_cases hc
      · exact absurd hi hhlt
      · rfl
      · rfl
      · rfl
    rw [hc]
    exact .inr ⟨hfault, fun _ => rfl, rfl⟩
  · exact .inl hkept

/-! ### The frames, family by family -/

/-- Settles O33: none of the ten is HLT, CMP, PRN, PUSH or CALL, and the write column of each is `x[a]`. -/
theorem registerWritersChangeOneRegister : Obligations.RegisterWritersChangeOneRegister := by
  intro a b s t i hi h
  have hrow : writtenRegs i = [a.toNat] ∧ i ≠ .hlt ∧ (∀ a b, i ≠ .cmp a b) ∧ (∀ a, i ≠ .prn a) ∧
      (∀ a, i ≠ .push a) ∧ (∀ a, i ≠ .call a) := by
    simp only [List.mem_cons, List.not_mem_nil, or_false] at hi
    rcases hi with rfl | rfl | rfl | rfl | rfl | rfl | rfl | rfl | rfl | rfl <;> simp [writtenRegs]
  obtain ⟨hwrites, hhlt, hcmp, hprn, hpush, hcall⟩ := hrow
  exact ⟨fun r hr => exec_keeps_reg h (by simpa [hwrites] using hr), exec_keeps_fl hcmp h, exec_keeps_out hprn h,
    byteAt_congr (exec_keeps_mem hpush hcall h), recordKeptOrStopped_of_exec hhlt h⟩

/-- Settles O34: CMP writes `FL` alone. -/
theorem cmpChangesNoRegisterAndNoMemory : Obligations.CmpChangesNoRegisterAndNoMemory :=
  fun _ _ _ _ h => ⟨fun _ => exec_keeps_reg h List.not_mem_nil, exec_keeps_out (by simp) h,
    byteAt_congr (exec_keeps_mem (by simp) (by simp) h), recordKeptOrStopped_of_exec (by simp) h, fl_of_exec_cmp h⟩

/-- Settles O35: the write column of a jump is empty, and it is no HLT, CMP, PRN, PUSH or CALL. -/
theorem jumpsChangeOnlyTheProgramCounter : Obligations.JumpsChangeOnlyTheProgramCounter := by
  intro a s t i hi h
  have hrow : writtenRegs i = [] ∧ i ≠ .hlt ∧ (∀ a b, i ≠ .cmp a b) ∧ (∀ a, i ≠ .prn a) ∧ (∀ a, i ≠ .push a) ∧
      (∀ a, i ≠ .call a) := by
    simp only [List.mem_cons, List.not_mem_nil, or_false] at hi
    rcases hi with rfl | rfl | rfl <;> simp [writtenRegs]
  obtain ⟨hwrites, hhlt, hcmp, hprn, hpush, hcall⟩ := hrow
  exact ⟨fun r => exec_keeps_reg h (by simp [hwrites]), exec_keeps_fl hcmp h, exec_keeps_out hprn h,
    byteAt_congr (exec_keeps_mem hpush hcall h), recordKeptOrStopped_of_exec hhlt h⟩

theorem out_of_exec_prn (h : exec (.prn a) s = .next t) :
    t.out = s.out ∨ ∃ r : Reg, r.val = a.toNat ∧ t.out = s.out ++ [s.reg r] := by
  obtain ⟨e, he, rfl⟩ := exists_formOf_of_exec h
  cases he with
  | emit => exact .inr ⟨_, (regByte_toNat _).symm, rfl⟩
  | _ => exact .inl rfl

/-- Settles O36: PRN appends its register to the output, and writes nothing else. -/
theorem prnChangesOnlyTheOutput : Obligations.PrnChangesOnlyTheOutput :=
  fun _ _ _ h => ⟨fun _ => exec_keeps_reg h List.not_mem_nil, exec_keeps_fl (by simp) h,
    byteAt_congr (exec_keeps_mem (by simp) (by simp) h), recordKeptOrStopped_of_exec (by simp) h, out_of_exec_prn h⟩

theorem sp_sub_one_ne (v : Byte) : v - 1 ≠ v := by
  bv_omega

/-- PUSH and CALL store at the decremented stack pointer and nowhere else, and then the stack pointer moved. -/
theorem byteAt_of_exec_push_or_call (hi : i ∈ [Instr.push a, .call a]) (h : exec i s = .next t) :
    (∀ addr, addr ≠ (decrementSp s).sp.toNat → t.byteAt addr = s.byteAt addr) ∧
      (t.sp = s.sp → ∀ addr, t.byteAt addr = s.byteAt addr) := by
  rw [decrementSp_sp]
  obtain ⟨e, he, rfl⟩ := exists_formOf_of_exec h
  cases he with
  | push | call =>
    refine ⟨fun addr haddr => Memory.get_set_of_ne s.mem _ haddr, fun hsp => ?_⟩
    exact absurd ((State.sp_setSp s _).symm.trans hsp) (sp_sub_one_ne s.sp)
  | _ => exact ⟨fun _ _ => rfl, fun _ _ => rfl⟩

theorem val_ne_seven {r : Reg} (h : r ≠ 7) : r.val ≠ 7 := Fin.val_ne_of_ne h

/-- Settles O37: the write column of PUSH and CALL is the stack pointer. -/
theorem pushAndCallStoreOneByte : Obligations.PushAndCallStoreOneByte := by
  intro a s t i hi h
  obtain ⟨hother, hstill⟩ := byteAt_of_exec_push_or_call hi h
  have hrow : writtenRegs i = [7] ∧ i ≠ .hlt ∧ (∀ a b, i ≠ .cmp a b) ∧ ∀ a, i ≠ .prn a := by
    simp only [List.mem_cons, List.not_mem_nil, or_false] at hi
    rcases hi with rfl | rfl <;> simp [writtenRegs]
  obtain ⟨hwrites, hhlt, hcmp, hprn⟩ := hrow
  exact ⟨fun r hr => exec_keeps_reg h (by simpa [hwrites] using val_ne_seven hr), exec_keeps_fl hcmp h,
    exec_keeps_out hprn h, hother, recordKeptOrStopped_of_exec hhlt h, hstill⟩

/-- Settles O38: the write column of POP is its register and the stack pointer. -/
theorem popChangesNoMemory : Obligations.PopChangesNoMemory := by
  refine fun a s t h => ⟨fun r h7 ha => exec_keeps_reg h ?_, exec_keeps_fl (by simp) h, exec_keeps_out (by simp) h,
    byteAt_congr (exec_keeps_mem (by simp) (by simp) h), recordKeptOrStopped_of_exec (by simp) h⟩
  simp [writtenRegs, ha, val_ne_seven h7]

/-- Settles O39: HLT enters its condition. -/
theorem hltChangesOnlyTheConditionRecord : Obligations.HltChangesOnlyTheConditionRecord := by
  intro s t h
  obtain rfl := Host.Outcome.next.inj (h.symm.trans (exec_hlt s))
  exact ⟨fun _ => rfl, rfl, rfl, rfl, fun _ => rfl⟩

end Sys2Proof.Machine
end

section
/-! Noninterference (10_state.md sections 1, 3 and 4, 20_memory.md section 1): what has no influence on an instruction.
First what the choice of the effect reads, then how doing an effect commutes with a change of one part of the state. -/

namespace Sys2Proof.Machine

variable {s t u : State} {i : Instr} {e : Effect}

/-! ### What an instruction reads -/

/-- The effect depends on the registers and `pc`, for JEQ and JNE on E, and for POP on the cell at the stack pointer. -/
theorem effect_congr (hregs : s.regs = u.regs) (hpc : s.pc = u.pc)
    (hfl : ∀ a, i = .jeq a ∨ i = .jne a → s.flagE = u.flagE)
    (hcell : ∀ a, i = .pop a → s.byteAt s.sp.toNat = u.byteAt s.sp.toNat) : effect s i = effect u i := by
  have hreg (r : Reg) : s.reg r = u.reg r := congrArg (·.get r) hregs
  have hsp : s.sp = u.sp := hreg 7
  have hbelow (r : Reg) : (decrementSp s).reg r = (decrementSp u).reg r := by
    rw [decrementSp_reg, decrementSp_reg, spBelow_eq, spBelow_eq, hsp, hreg]
  cases i with
  | hlt => rfl
  | push a => simp only [effect, hsp, hbelow]
  | pop a =>
    have hbyte := hcell a rfl
    rw [hsp] at hbyte
    simp only [effect, sp_setReg, hsp, hbyte]
  | call a => simp only [effect, hsp, hbelow, hpc]
  | jeq a => simp only [effect, hreg, hfl a (.inl rfl)]
  | jne a => simp only [effect, hreg, hfl a (.inr rfl)]
  | _ => simp only [effect, hreg]

theorem fetch_congr (hpc : s.pc = u.pc) (hmem : s.mem = u.mem) : fetch s = fetch u := by
  have hread (a : Nat) : memRead s a = memRead u a := by rw [memRead, memRead, State.byteAt, State.byteAt, hmem]
  simp only [fetch, fetchOperands, hread, hpc]

/-- What a step does depends on registers, `pc`, `FL` and memory alone. -/
theorem stepEffect_congr (hregs : s.regs = u.regs) (hpc : s.pc = u.pc) (hfl : s.fl = u.fl) (hmem : s.mem = u.mem) :
    stepEffect s = stepEffect u := by
  have heffect (i : Instr) : effect s i = effect u i :=
    effect_congr hregs hpc (fun _ _ => congrArg (·.getLsbD 0) hfl) fun _ _ => congrArg (·.get s.sp.toNat) hmem
  simp only [stepEffect, fetch_congr hpc hmem, heffect]

/-- The effect does not depend on a register outside the read column (10_state.md rule R13). -/
theorem effect_setReg (hi : OnRegisters i) {r : Reg} (hr : r.val ∉ readRegs s i) (v : Byte) :
    effect (s.setReg r v) i = effect s i := by
  have hread {q : Reg} (hq : q.val ∈ readRegs s i) : (s.setReg r v).reg q = s.reg q :=
    State.reg_setReg_of_ne s r v (by rintro rfl; exact hr hq)
  have hsp (h7 : 7 ∈ readRegs s i) : (s.setReg r v).sp = s.sp := hread (q := 7) h7
  cases hi with
  | hlt | ldi => rfl
  | push q | call q =>
    simp only [effect, Effect.onReg_regByte, decrementSp_reg, spBelow_eq, hsp (by simp [readRegs]),
      hread (q := q) (by simp [readRegs]), State.setReg_pc]
  | pop q =>
    simp only [effect, Effect.onReg_regByte, sp_setReg _ q, hsp (by simp [readRegs])]
    rfl
  | prn q | jump q => simp only [effect, Effect.onReg_regByte, hread (q := q) (by simp [readRegs])]
  | jeq q | jne q =>
    simp only [effect, Effect.onReg_regByte]
    cases hE : s.flagE with
    | true => simp_all [State.flagE, readRegs]
    | false => simp_all [State.flagE, readRegs]
  | not p q => simp only [effect, Effect.onRegs_regByte, hread (q := q) (by simp [readRegs])]
  | add p q | mul p q | mod p q | cmp p q | and p q | or p q | xor p q | shl p q | shr p q =>
    simp only [effect, Effect.onRegs_regByte, hread (q := p) (by simp [readRegs]),
      hread (q := q) (by simp [readRegs])]

/-! ### Doing an effect -/

theorem Regs.set_set (f : Regs) (r q : Reg) (v w : Byte) :
    (f.set r v).set q w = if r = q then f.set q w else (f.set q w).set r v := by
  split
  · next h => rw [h, Regs.set_set_self]
  · next h => exact Regs.set_comm r v f w (Ne.symm h)

/-- Doing an effect and putting a value into a register: the effect comes last where it writes the register. -/
theorem Effect.apply_setReg (e : Effect) (s : State) (r : Reg) (v : Byte) :
    e.apply (s.setReg r v) = if r ∈ e.writes then e.apply s else (e.apply s).setReg r v := by
  cases e with
  | write q w =>
    simp only [apply, writes, List.mem_singleton, State.setReg, Regs.set_set _ r q v w]
    split <;> rfl
  | push p w | call p w target =>
    simp only [apply, writes, List.mem_singleton, State.setSp, State.setReg, Config.spIndex, Regs.set_set _ r 7 v p]
    split <;> rfl
  | pop q w p =>
    simp only [apply, writes, List.mem_cons, List.not_mem_nil, or_false, State.setSp, State.setReg, Config.spIndex,
      Regs.set_set _ r q v w]
    by_cases hq : r = q
    · rw [if_pos hq, if_pos (.inl hq)]
    · rw [if_neg hq, Regs.set_set _ r 7 v p]
      by_cases h7 : r = 7
      · rw [if_pos h7, if_pos (.inr h7)]
      · rw [if_neg h7, if_neg (not_or.2 ⟨hq, h7⟩)]
        rfl
  | _ => rfl

theorem Effect.apply_setFl (he : ∀ w, e ≠ .flags w) (s : State) (v : Byte) :
    e.apply (s.setFl v) = (e.apply s).setFl v := by
  cases e with
  | flags w => exact absurd rfl (he w)
  | _ => rfl

/-! ### The flags -/

theorem effect_ne_flags (hcmp : ∀ a b, i ≠ .cmp a b) (s : State) (w : Byte) : effect s i ≠ .flags w := by
  intro h
  have hform := formOf_effect s i
  rw [h] at hform
  cases hform
  exact hcmp _ _ rfl

/-- Another `FL` has no influence on an instruction other than CMP, but for E on a conditional jump. -/
theorem exec_setFl {v : Byte} (hcmp : ∀ a b, i ≠ .cmp a b)
    (hE : ∀ a, i = .jeq a ∨ i = .jne a → v.getLsbD 0 = s.fl.getLsbD 0) (h : exec i s = .next t) :
    exec i (s.setFl v) = .next (t.setFl v) := by
  obtain rfl := eq_apply_effect h
  have heff : effect (s.setFl v) i = effect s i := effect_congr rfl rfl hE fun _ _ => rfl
  rw [exec_eq_apply_effect, heff, Effect.apply_setFl (effect_ne_flags hcmp s)]

/-- Settles O41: JEQ and JNE are the only readers of `FL`, and read E; CMP overwrites it. -/
theorem flagsAreReadOnlyByTheConditionalJumps : Obligations.FlagsAreReadOnlyByTheConditionalJumps := by
  refine ⟨fun i s t v hjeq hjne hcmp h => exec_setFl hcmp (fun a hi => ?_) h, fun a s t v hv i hi h => ?_,
    fun ra rb s v => ?_⟩
  · exact (hi.elim (hjeq a) (hjne a)).elim
  · refine exec_setFl (fun _ _ => ?_) (fun _ _ => hv) h
    simp only [List.mem_cons, List.not_mem_nil, or_false] at hi
    rcases hi with rfl | rfl <;> simp
  · rw [exec_cmp, exec_cmp]
    rfl

/-! ### Data memory -/

/-- Another memory changes what an effect does to memory alone. -/
theorem Effect.apply_withMem (e : Effect) (s : State) (m : Memory) :
    e.apply { s with mem := m } = { e.apply s with mem := (e.apply { s with mem := m }).mem } := by
  cases e <;> rfl

/-- Settles O46: POP alone reads a cell; PUSH and CALL alone store. -/
theorem dataMemoryIsReadOnlyByPop : Obligations.DataMemoryIsReadOnlyByPop := by
  refine ⟨fun i s t m hpop h => ?others, fun a s t m hcell h => ?pop, fun i s t => exec_keeps_mem⟩
  case others =>
    obtain rfl := eq_apply_effect h
    refine ⟨_, exec_eq_apply_effect i _, ?_⟩
    have heff : effect { s with mem := m } i = effect s i :=
      effect_congr rfl rfl (fun _ _ => rfl) fun a hi => absurd hi (hpop a)
    rw [heff]
    exact (effect s i).apply_withMem s m
  case pop =>
    obtain rfl := eq_apply_effect h
    have heff : effect { s with mem := m } (.pop a) = effect s (.pop a) :=
      effect_congr rfl rfl (fun _ _ => rfl) fun _ _ => hcell
    rw [exec_eq_apply_effect, heff, Effect.apply_withMem]
    have hmem := exec_keeps_mem (by simp) (by simp) (exec_eq_apply_effect (.pop a) { s with mem := m })
    rw [heff] at hmem
    rw [hmem]

/-! ### Registers -/

theorem onRegisters_of_wf (h : i.wf = true) : OnRegisters i := by
  obtain hi | ⟨b, hmem, hb, _⟩ := onRegisters_or_stops i
  · exact hi
  · exact absurd ((Laws.EncodeShape.of_instr i).2.1 h b hmem) (Nat.not_le.2 hb)

/-- A register outside the read column is written exactly when the write column has it. (CALL and MOD, which write
nothing where they fault, read every register that they may write.) -/
theorem mem_writes_iff (hi : OnRegisters i) {r : Reg} (hr : r.val ∉ readRegs s i) :
    r ∈ (effect s i).writes ↔ r.val ∈ writtenRegs i := by
  refine ⟨(formOf_effect s i).val_mem_writtenRegs, fun hw => ?_⟩
  cases hi with
  | hlt | prn | jump | jeq | jne | cmp => cases hw
  | ldi q | not q | pop q => simpa [effect, Effect.writes, writtenRegs, Fin.ext_iff] using hw
  | push | call | add | mul | mod | and | or | xor | shl | shr => simp_all [readRegs, writtenRegs]

/-- Settles O42: an effect writes inside the write column; a register outside the read column changes neither the effect
nor what it does elsewhere. -/
theorem registersReadAndWrittenFollowTheTable : Obligations.RegistersReadAndWrittenFollowTheTable := by
  refine ⟨fun i s t h r => exec_keeps_reg h, fun i s t r v hwf hr h => ?_⟩
  have hi := onRegisters_of_wf hwf
  obtain rfl := eq_apply_effect h
  rw [exec_eq_apply_effect, effect_setReg hi hr, Effect.apply_setReg]
  simp only [mem_writes_iff hi hr]

end Sys2Proof.Machine
end

section
/-! Runs (40_execution_loop.md section 4, 70_reset_and_hazards.md section 3): induction along a run, the output and the
condition record, loading, the ends of a run, and a run that never ends. -/

namespace Sys2Proof.Machine

variable {s t u : State}

/-! ### Induction along a run -/

theorem runFor_of_step {n : Nat} (h : step s = .next u) : runFor (n + 1) s = runFor n u := by
  rw [runFor, h]

theorem runFor_of_not_running (hs : s.rs ≠ .running) (n : Nat) : runFor n s = s := by
  cases n with
  | zero => rfl
  | succ n => rw [runFor, step_of_not_running hs]

/-- A step of the machine, or none: what a run does first. -/
theorem step_next_or_not_running (s : State) : (∃ u, step s = .next u) ∨ s.rs ≠ .running := by
  by_cases hs : s.rs = .running
  · exact .inl ((runningMachineStepsAndStoppedMachineDoesNot s).1 hs)
  · exact .inr hs

/-- What holds at the start and is kept by every step holds after any number of steps. -/
theorem runFor_induction {P : State → Prop} (hstep : ∀ s u, P s → step s = .next u → P u) (n : Nat) (hs : P s) :
    P (runFor n s) := by
  induction n generalizing s with
  | zero => exact hs
  | succ n ih =>
    obtain ⟨u, hu⟩ | hstop := step_next_or_not_running s
    · rw [runFor_of_step hu]
      exact ih (hstep s u hs hu)
    · rwa [runFor_of_not_running hstop]

/-! ### The output -/

theorem Effect.out_prefix_apply (e : Effect) (s : State) : s.out <+: (e.apply s).out := by
  cases e with
  | emit v => exact List.prefix_append s.out [v]
  | _ => exact List.prefix_refl _

theorem out_prefix_of_step (h : step s = .next t) : s.out <+: t.out := by
  obtain ⟨_, rfl⟩ := eq_apply_stepEffect h
  exact Effect.out_prefix_apply _ s

/-- Settles O49: an effect appends to the output at most, so every step of a run extends it. -/
theorem outputOnlyGrowsAndOnlyByPrn : Obligations.OutputOnlyGrowsAndOnlyByPrn :=
  ⟨fun _ _ _ => exec_keeps_out, fun n s =>
    runFor_induction (P := fun u => s.out <+: u.out) (fun _ _ hw h => hw.trans (out_prefix_of_step h)) n
      (List.prefix_refl s.out)⟩

/-- The state with bytes put in front of its output. -/
def State.withEarlier (s : State) (earlier : List Byte) : State := { s with out := earlier ++ s.out }

theorem Effect.apply_withEarlier (e : Effect) (s : State) (earlier : List Byte) :
    e.apply (s.withEarlier earlier) = (e.apply s).withEarlier earlier := by
  cases e with
  | emit v => simp [apply, State.withEarlier, State.emit, State.advance]
  | _ => rfl

theorem step_withEarlier (earlier : List Byte) (h : step s = .next t) :
    step (s.withEarlier earlier) = .next (t.withEarlier earlier) := by
  obtain ⟨hs, rfl⟩ := eq_apply_stepEffect h
  have heffect : stepEffect (s.withEarlier earlier) = stepEffect s := stepEffect_congr rfl rfl rfl rfl
  rw [step_eq_apply_stepEffect (s := s.withEarlier earlier) hs, heffect, Effect.apply_withEarlier]

/-- Settles O50: the earlier output is carried along by every step. -/
theorem outputIsWriteOnly : Obligations.OutputIsWriteOnly := by
  intro n s earlier
  change runFor n (s.withEarlier earlier) = (runFor n s).withEarlier earlier
  induction n generalizing s with
  | zero => rfl
  | succ n ih =>
    obtain ⟨u, hu⟩ | hstop := step_next_or_not_running s
    · rw [runFor_of_step hu, runFor_of_step (step_withEarlier earlier hu), ih]
    · rw [runFor_of_not_running hstop, runFor_of_not_running (s := s.withEarlier earlier) hstop]

/-! ### The condition record -/

/-- Another record is left by an effect that goes on, and overwritten by a condition. -/
theorem Effect.apply_withRecord (e : Effect) (hs : s.rs = .running) (c : Cause) (k : Nat) :
    e.apply { s with cause := c, info := k } =
      { e.apply s with
        cause := if (e.apply s).rs = .running then c else (e.apply s).cause
        info := if (e.apply s).rs = .running then k else (e.apply s).info } := by
  obtain ⟨d, rfl⟩ | ⟨hrs, _⟩ := e.stops_or_keeps_record s
  · have hstopped : (Effect.apply s (.stop d)).rs ≠ .running := d.runState_ne_running
    rw [if_neg hstopped, if_neg hstopped]
    rfl
  · rw [hrs, if_pos hs, if_pos hs]
    cases e with
    | stop d => exact absurd (hrs.trans hs) d.runState_ne_running
    | _ => rfl

/-- Settles O51: neither CAUSE nor INFO has a part in what a step does. -/
theorem conditionRecordIsInvisibleToTheProgram : Obligations.ConditionRecordIsInvisibleToTheProgram := by
  intro s t c k h
  obtain ⟨hs, rfl⟩ := eq_apply_stepEffect h
  have heffect : stepEffect { s with cause := c, info := k } = stepEffect s := stepEffect_congr rfl rfl rfl rfl
  rw [step_eq_apply_stepEffect (s := { s with cause := c, info := k }) hs, heffect, Effect.apply_withRecord _ hs]

/-! ### Loading, and the ends of a loaded run -/

/-- Settles O59: an image that fits is placed from cell 0 on, and a longer one is refused. -/
theorem loadPlacesTheImageFromAddressZero : Obligations.LoadPlacesTheImageFromAddressZero := by
  refine fun bytes s => ⟨fun hfit => ?_, fun hlong => if_neg (Nat.not_le.2 hlong)⟩
  have hload : load bytes s = .ok { s with mem := s.mem.place 0 bytes } := load_eq_ok_iff.2 ⟨hfit, rfl⟩
  exact ⟨_, hload, rfl, byteAt_of_load hload⟩

theorem inv_of_load {bytes : List Byte} (hs : s.Inv) (h : load bytes s = .ok t) : t.Inv := by
  obtain ⟨_, rfl⟩ := load_eq_ok_iff.1 h
  obtain ⟨hwf, hrest⟩ := hs
  exact ⟨Memory.wf_place hwf 0 bytes, hrest⟩

theorem inv_runFor (hs : s.Inv) (n : Nat) : (runFor n s).Inv :=
  runFor_induction everyStepKeepsTheMachineInvariant n hs

/-- The rows of the table of conditions, by the numbers of their causes. -/
theorem State.RecordLegal.end_cases (h : t.RecordLegal) (hstopped : t.rs ≠ .running) :
    (t.rs = .halted ∧ t.cause.code = 1) ∨ (t.rs = .halted ∧ t.cause.code = 2) ∨
      (t.rs = .faulted ∧ 3 ≤ t.cause.code ∧ t.cause.code ≤ 6) := by
  obtain ⟨hrun, _⟩ | ⟨hrs, hc, _⟩ | ⟨hrs, hc, _⟩ | ⟨hrs, hc, _⟩ | ⟨hrs, hc, _⟩ | ⟨hrs, hc, _⟩ | ⟨hrs, hc, _⟩ := h
  · exact absurd hrun hstopped
  all_goals simp [hrs, hc, Cause.code]

/-- Settles O54: a load after reset keeps the invariant, every step keeps it, and a stopped state that meets it has one
of the rows of the table. -/
theorem loadedRunsEndInOneOfThreeWays : Obligations.LoadedRunsEndInOneOfThreeWays := by
  intro image s hload
  have hinv := inv_runFor (inv_of_load resetMeetsTheMachineInvariant hload)
  refine ⟨hinv, ?_⟩
  rintro t ⟨n, rfl, hstopped⟩
  obtain ⟨_, _, _, hrec⟩ := hinv n
  exact hrec.end_cases hstopped

/-! ### What a run returns -/

theorem runFor_add (m n : Nat) (s : State) : runFor (m + n) s = runFor n (runFor m s) := by
  induction m generalizing s with
  | zero => rw [Nat.zero_add]; rfl
  | succ m ih =>
    obtain ⟨u, hu⟩ | hstop := step_next_or_not_running s
    · rw [Nat.succ_add, runFor_of_step hu, runFor_of_step hu, ih]
    · rw [runFor_of_not_running hstop, runFor_of_not_running hstop, runFor_of_not_running hstop]

/-- A run that has stopped stays where it is, for any further steps. -/
theorem runFor_eq_of_le {m n : Nat} (hle : m ≤ n) (hstopped : (runFor m s).rs ≠ .running) :
    runFor n s = runFor m s := by
  obtain ⟨k, rfl⟩ := Nat.exists_eq_add_of_le hle
  rw [runFor_add, runFor_of_not_running hstopped]

theorem RunResult.unique {t' : State} (h : RunResult s t) (h' : RunResult s t') : t = t' := by
  obtain ⟨n, rfl, hn⟩ := h
  obtain ⟨n', rfl, hn'⟩ := h'
  obtain hle | hle := Nat.le_total n n'
  · exact (runFor_eq_of_le hle hn).symm
  · exact runFor_eq_of_le hle hn'

theorem runResult_iff_of_step (h : step s = .next u) : RunResult s t ↔ RunResult u t := by
  refine ⟨fun ⟨n, hn, hstopped⟩ => ?_, fun ⟨n, hn, hstopped⟩ => ⟨n + 1, (runFor_of_step h).trans hn, hstopped⟩⟩
  cases n with
  | zero =>
    obtain rfl : s = t := hn
    exact absurd (step_cases h).1 hstopped
  | succ n => exact ⟨n, (runFor_of_step h).symm.trans hn, hstopped⟩

theorem readBack_of_not_running (h : t.rs ≠ .running) : readBack t = some t := by
  unfold readBack
  cases hrs : t.rs with
  | running => exact absurd hrs h
  | halted => rfl
  | faulted => rfl

/-- Settles O60: a stopped machine has no step, so a run that stopped stays where it is, and two runs from one state
that stopped agree after the longer of them. -/
theorem runReturnsTheOneStoppedState : Obligations.RunReturnsTheOneStoppedState :=
  ⟨fun _ hs => ⟨runFor_of_not_running hs, 0, rfl, hs⟩, fun _ _ _ => runResult_iff_of_step,
    fun _ _ _ => RunResult.unique, fun _ _ ⟨_, ht, hstopped⟩ => ht ▸ readBack_of_not_running (ht ▸ hstopped),
    fun s hs => by rw [readBack, hs]⟩

/-! ### A run that never ends -/

theorem step_of_jump_to_itself {r : Reg} (hs : s.rs = .running) (hpc : s.pc.toNat ≤ 254)
    (hop : s.byteAt s.pc.toNat = 0x54) (hr : s.byteAt (s.pc.toNat + 1) = regByte r)
    (htarget : (s.reg r).toNat = s.pc.toNat) : step s = .next s := by
  obtain ⟨_, _, hruns, _⟩ := jumpGoesToTheRegister.1
  rw [hruns s hs hpc hop, hr, jumpGoesToTheRegister.2, htarget, BitVec.ofNat_toNat, BitVec.setWidth_eq]

/-- Settles O58: the step answers the same state, so every number of steps does, and that state is RUNNING. -/
theorem jumpToItselfRunsForever : Obligations.JumpToItselfRunsForever := by
  intro r s hs hpc hop hr htarget
  have hstep := step_of_jump_to_itself hs hpc hop hr htarget
  have hrun (n : Nat) : runFor n s = s :=
    runFor_induction (P := (· = s)) (fun w u hw hu => by
      subst hw
      exact Host.Outcome.next.inj (hu.symm.trans hstep)) n rfl
  refine ⟨hstep, hrun, ?_⟩
  rintro t ⟨n, rfl, hstopped⟩
  exact hstopped ((hrun n).symm ▸ hs)

end Sys2Proof.Machine
end

section
/-! Canonical memories (20_memory.md section 1), the state after reset (10_state.md section 6), the stack round trip
(42_stack.md) and the return idiom (43_control_flow.md). -/

namespace Sys2Proof.Machine

variable {s t : State}

/-! ### Canonical memories -/

theorem Memory.get_eq_zero {m : Memory} {a : Nat} (h : ∀ c ∈ m, c.1 ≠ a) : m.get a = 0 := by
  induction m with
  | nil => rfl
  | cons c rest ih =>
    rw [get_cons, if_neg (h c List.mem_cons_self)]
    exact ih fun d hd => h d (List.mem_cons_of_mem c hd)

/-- A memory in canonical form lists the bytes that are not 0. -/
theorem Memory.mem_iff_get {m : Memory} (h : m.wf) (c : Host.Cell) : c ∈ m ↔ m.get c.1 = c.2 ∧ c.2 ≠ 0 := by
  obtain ⟨hsorted, hcells⟩ := h
  induction m with
  | nil => exact ⟨fun hc => absurd hc List.not_mem_nil, fun ⟨hzero, hne⟩ => absurd hzero.symm hne⟩
  | cons d rest ih =>
    obtain ⟨hd, hrest⟩ := List.pairwise_cons.1 hsorted
    have ih := ih hrest fun c hc => hcells c (List.mem_cons_of_mem d hc)
    rw [List.mem_cons, get_cons]
    by_cases hc : d.1 = c.1
    · rw [if_pos hc]
      constructor
      · rintro (rfl | hmem)
        · exact ⟨rfl, (hcells c List.mem_cons_self).2⟩
        · exact absurd hc (hd c hmem).ne
      · rintro ⟨hbyte, _⟩
        exact .inl (Prod.ext hc.symm hbyte.symm)
    · rw [if_neg hc, ih, or_iff_right (by rintro rfl; exact hc rfl)]

/-- Settles O47: both list the same cells, and in rising order. -/
theorem equalReadsMeanEqualMemory : Obligations.EqualReadsMeanEqualMemory := by
  intro m m' h h' hget
  have hnodup {m : Memory} (h : m.wf) : m.Nodup := h.1.imp fun hlt => by rintro rfl; exact lt_irrefl _ hlt
  have hperm : m.Perm m' := (List.perm_ext_iff_of_nodup (hnodup h) (hnodup h')).2 fun c => by
    rw [Memory.mem_iff_get h, Memory.mem_iff_get h', hget]
  exact hperm.eq_of_pairwise (fun _ _ _ _ hlt hgt => absurd hgt (lt_asymm hlt)) h.1 h'.1

/-! ### Reset -/

/-- Settles O1: the register file is read at each of its eight numbers; memory is empty. -/
theorem resetLeavesTheSpecifiedState : Obligations.ResetLeavesTheSpecifiedState :=
  ⟨by decide, rfl, rfl, fun _ => rfl, rfl, rfl, rfl, rfl, rfl⟩

/-! ### The stack -/

/-- POP after a push of `v`, wherever the stack pointer stood before: `v` and the old stack pointer come back. -/
theorem exec_pop_of_top (q : Reg) {p v : Byte} (hsp : t.sp = p - 1) (htop : t.byteAt t.sp.toNat = v) :
    exec (.pop (regByte q)) t = .next (({ t with
      regs := (t.regs.set q v).set 7 (if q = 7 then v + 1 else p) }).advance 2) := by
  rw [exec_pop, htop, sp_setReg, hsp]
  split
  · rfl
  · rw [BitVec.sub_add_cancel]
    rfl

/-- The cell at the decremented stack pointer holds the byte pushed. -/
theorem get_set_at_decrementSp (s : State) (v : Byte) :
    (s.mem.set (s.sp - 1).toNat v).get (decrementSp s).sp.toNat = v := by
  rw [decrementSp_sp, Memory.get_set_self]

/-- What PUSH leaves: the stack pointer one lower, and at it the byte of the register as it then is. -/
theorem top_of_exec_push {r : Reg} (h : exec (.push (regByte r)) s = .next t) :
    t.regs = s.regs.set 7 (s.sp - 1) ∧ t.sp = s.sp - 1 ∧ t.byteAt t.sp.toNat = if r = 7 then s.sp - 1 else s.reg r := by
  obtain rfl := Host.Outcome.next.inj (h.symm.trans (exec_push r s))
  refine ⟨rfl, decrementSp_sp s, (get_set_at_decrementSp s _).trans ?_⟩
  rw [decrementSp_reg, spBelow_eq]

/-- A register written between two writes of the stack pointer, of which the second restores it. -/
theorem Regs.set_sp_restored (f : Regs) {r : Reg} (hr : r ≠ 7) (p v : Byte) :
    ((f.set 7 p).set r v).set 7 (f.get 7) = f.set r v := by
  rw [Regs.set_comm r v (f.set 7 p) _ hr.symm, Regs.set_set_self, Regs.set_get_self]

/-- Settles O56: POP gives back the byte pushed and the stack pointer; for register 7 the byte is the decremented
stack pointer, which POP increments. -/
theorem pushThenPopRestoresTheRegisters : Obligations.PushThenPopRestoresTheRegisters := by
  intro r s t h
  obtain ⟨hregs, hsp, htop⟩ := top_of_exec_push h
  refine ⟨⟨_, exec_pop_of_top r hsp htop, ?_⟩, fun q _ hr hq => ⟨_, exec_pop_of_top q hsp htop, ?_⟩⟩
  · rw [State.advance_regs, hregs]
    by_cases hr : r = 7
    · subst hr
      simp only [if_true, Regs.set_set_self, BitVec.sub_add_cancel]
      exact Regs.set_get_self 7 s.regs
    · simp only [if_neg hr]
      exact (Regs.set_sp_restored s.regs hr _ _).trans (Regs.set_get_self r s.regs)
  · rw [State.advance_regs, hregs]
    simp only [if_neg hr, if_neg hq]
    exact Regs.set_sp_restored s.regs hq _ _

/-- A return address is a byte, so `pc` gets it back whole. -/
theorem setWidth_ofNat_pc_add_two (hret : s.pc.toNat + 2 ≤ 255) :
    (BitVec.ofNat 8 (s.pc.toNat + 2)).setWidth 9 = s.pc + 2 := by
  apply BitVec.eq_of_toNat_eq
  have htwo : (2 : PcWord).toNat = 2 := rfl
  simp only [BitVec.toNat_setWidth, BitVec.toNat_ofNat, BitVec.toNat_add, htwo]
  omega

/-- Settles O57: POP gives back the return address and the stack pointer, and JUMP goes to that address. -/
theorem returnIdiomReturnsAfterTheCall : Obligations.ReturnIdiomReturnsAfterTheCall := by
  intro ra rt s t t' hrt hret h hsp htop
  obtain rfl := Host.Outcome.next.inj (h.symm.trans (exec_call_of_le ra s hret))
  have hsp' : t'.sp = s.sp - 1 := hsp.trans (decrementSp_sp s)
  have htop' : t'.byteAt t'.sp.toNat = BitVec.ofNat 8 (s.pc.toNat + 2) := by
    rw [hsp, htop]
    exact get_set_at_decrementSp s _
  refine ⟨_, _, exec_pop_of_top rt hsp' htop', exec_jump rt _, ?_, ?_⟩
  · rw [State.jumpTo_pc, State.reg_advance, State.reg, Regs.get_set_of_ne _ _ _ hrt, Regs.get_set_self,
      setWidth_ofNat_pc_add_two hret]
  · rw [if_neg hrt]
    exact Regs.get_set_self 7 s.sp _

end Sys2Proof.Machine
end

section
/-! The step is the step function of 40_execution_loop.md rule R64. `specDispatch` names the part of `specStep` after
the fetch; a failed fetch, a failed lookup and each row of the map are compared with it in turn. -/

namespace Sys2Proof.Machine

open Sys2Proof.Claims

variable {s : State} {c : Condition} {f : Fetched} {m : Mnemonic}

/-! ### The words of the specification on registers -/

@[simp] theorem specReg_regByte (s : State) (r : Reg) : specReg s (regByte r) = s.reg r := by
  simp [specReg, State.reg]

@[simp] theorem ofNat_mod_256 (n : Nat) : BitVec.ofNat 8 (n % 256) = BitVec.ofNat 8 n := by
  apply BitVec.eq_of_toNat_eq
  simp

@[simp] theorem specWrite_regByte (s : State) (r : Reg) (v : Nat) (k : PcWord) :
    specWrite s (regByte r) v k = { s with regs := s.regs.set r (BitVec.ofNat 8 v), pc := s.pc + k } := by
  simp [specWrite]

/-! ### The fetch -/

/-- The part of `specStep` after the fetch: the `case` on the opcode byte, with the register checks. -/
def specDispatch (s : State) (op a b : Byte) : State :=
  if op ∈ ([0x47, 0x45, 0x46, 0x50, 0x54, 0x55, 0x56, 0x82] : List Byte) then
    if a.toNat > 7 then specStop s .faulted .registerIndex a.toNat else specOne s op a b
  else if op ∈ ([0xA0, 0xA2, 0xA4, 0xA7, 0xA8, 0xA9, 0xAA, 0xAB, 0xAC, 0xAD] : List Byte) then
    if a.toNat > 7 then specStop s .faulted .registerIndex a.toNat
    else if b.toNat > 7 then specStop s .faulted .registerIndex b.toNat
    else specAlu s op a b
  else if op = 0x01 then specStop s .halted .hlt 0
  else specStop s .halted .unrecognizedOpcode op.toNat

theorem specStep_of_fetch_error (hf : fetch s = .error c) : specStep s = s.stop c := by
  unfold specStep
  obtain ⟨hpc, rfl⟩ | ⟨hpc, hop, rfl⟩ | ⟨hpc, hop, rfl⟩ := fetch_error hf
  · exact if_pos hpc
  · rw [operandCount_eq_div] at hop
    simp only [hpc]
    rw [if_neg (by decide), if_pos ⟨hop, by decide⟩]
    rfl
  · rw [operandCount_eq_div] at hop
    simp only [hpc]
    rw [if_neg (by decide), if_neg (by simp), if_pos ⟨hop, by decide⟩]
    rfl

theorem specStep_of_fetch_ok (hf : fetch s = .ok f) : specStep s =
    specDispatch s (s.byteAt s.pc.toNat) (s.byteAt (s.pc.toNat + 1)) (s.byteAt (s.pc.toNat + 2)) := by
  obtain ⟨hpc, hop, hfirst, hsecond⟩ := fetch_ok hf
  rw [hop, operandCount_eq_div] at hfirst hsecond
  unfold specStep
  rw [if_neg (by omega), if_neg (fun h => by have := (hfirst h.1).1; omega),
    if_neg (fun h => by have := (hsecond h.1).1; omega)]
  rfl

/-! ### The rows of the map -/

/-- POP writes its register, and then the stack pointer in the state so reached. -/
theorem specOne_pop (s : State) (r : Reg) (b : Byte) : specOne s (opcodeMap .pop) (regByte r) b =
    specWrite (s.setReg r (s.byteAt s.sp.toNat)) (regByte 7) ((s.setReg r (s.byteAt s.sp.toNat)).sp.toNat + 1) 2 := by
  have hr : Fin.ofNat 8 (regByte r).toNat = r := by simp
  simp only [specOne, opcodeMap, hr]
  rfl

/-- The rows with one register operand, on a register: each by the theorem that states its rule. -/
theorem exec_eq_specOne (hm : m.format = .f1 ∨ m.format = .f2i) (s : State) (r : Reg) (b : Byte) :
    exec (makeInstr m (regByte r) b) s = .next (specOne s (opcodeMap m) (regByte r) b) := by
  cases m with
  | ldi => simpa [makeInstr, specOne, opcodeMap] using ldiLoadsItsImmediate.2 r b s
  | prn => simpa [makeInstr, specOne, opcodeMap] using prnAppendsTheRegisterToTheOutput.2 r s
  | push => simpa [makeInstr, specOne, opcodeMap, State.reg_setReg] using pushStoresBelowTheStackPointer.2 r s
  | pop =>
    rw [makeInstr, exec_pop, specOne_pop, specWrite_regByte, ← ofNat_mod_256, ofNat_succ_mod]
    rfl
  | call =>
    by_cases hret : 255 < s.pc.toNat + 2
    · simpa [makeInstr, specOne, opcodeMap, hret, specStop] using callPushesTheReturnAddress.2.2 r s hret
    · simpa [makeInstr, specOne, opcodeMap, hret, State.reg_setReg] using
        callPushesTheReturnAddress.2.1 r s (Nat.le_of_not_lt hret)
  | jump => simpa [makeInstr, specOne, opcodeMap] using jumpGoesToTheRegister.2 r s
  | jeq => simpa [makeInstr, specOne, opcodeMap] using jeqJumpsWhenEqual.2.2 r s
  | jne =>
    have hrule := jneJumpsWhenNotEqual.2.2 r s
    simp only [← Bool.not_eq_true, ite_not] at hrule
    simpa [makeInstr, specOne, opcodeMap] using hrule
  | _ => simp [Mnemonic.format] at hm

/-- The rows with two register operands, on registers. -/
theorem exec_eq_specAlu (hm : m.format = .f2r) (s : State) (r q : Reg) :
    exec (makeInstr m (regByte r) (regByte q)) s = .next (specAlu s (opcodeMap m) (regByte r) (regByte q)) := by
  cases m with
  | add => simpa [makeInstr, specAlu, opcodeMap] using addKeepsTheLowEightBitsOfTheSum.2 r q s
  | mul => simpa [makeInstr, specAlu, opcodeMap] using mulKeepsTheLowEightBitsOfTheProduct.2 r q s
  | not => simpa [makeInstr, specAlu, opcodeMap] using notComplementsTheSecondOperand.2 r q s
  | shl => simpa [makeInstr, specAlu, opcodeMap] using shlShiftsByTheSecondOperand.2 r q s
  | shr => simpa [makeInstr, specAlu, opcodeMap] using shrShiftsInZeros.2 r q s
  | cmp => simpa [makeInstr, specAlu, opcodeMap] using cmpSetsExactlyOneFlag.2 r q s
  | and => simp [makeInstr, specAlu, opcodeMap, exec_and, aluWrite_eq_ofNat (BitVec.toNat_and _ _)]
  | or => simp [makeInstr, specAlu, opcodeMap, exec_or, aluWrite_eq_ofNat (BitVec.toNat_or _ _)]
  | xor => simp [makeInstr, specAlu, opcodeMap, exec_xor, aluWrite_eq_ofNat (BitVec.toNat_xor _ _)]
  | mod =>
    by_cases hq : s.reg q = 0
    · simpa [makeInstr, specAlu, opcodeMap, hq, specStop] using modLeavesTheRemainderOrFaults.2.2 r q s hq
    · have hne : (s.reg q).toNat ≠ 0 := fun h => hq (BitVec.eq_of_toNat_eq h)
      simpa [makeInstr, specAlu, opcodeMap, hne] using modLeavesTheRemainderOrFaults.2.1 r q s hq
  | _ => cases hm

/-- Every row, with its register checks. -/
theorem exec_eq_specDispatch (m : Mnemonic) (s : State) (a b : Byte) :
    exec (makeInstr m a b) s = .next (specDispatch s (opcodeMap m) a b) := by
  cases m with
  | hlt => rfl
  | push | pop | prn | call | jump | jeq | jne | ldi =>
    rw [specDispatch, if_pos (by decide)]
    obtain ⟨r, rfl, _⟩ | ⟨ha, _⟩ := regOperand_cases a
    · rw [if_neg (by simp [not_seven_lt_val])]
      exact exec_eq_specOne (by decide) s r b
    · rw [if_pos ha]
      exact withReg_of_gt ha s _
  | add | mul | mod | cmp | and | not | or | xor | shl | shr =>
    rw [specDispatch, if_neg (by decide), if_pos (by decide)]
    obtain ⟨r, rfl, _⟩ | ⟨ha, _⟩ := regOperand_cases a
    · rw [if_neg (by simp [not_seven_lt_val])]
      obtain ⟨q, rfl, _⟩ | ⟨hb, _⟩ := regOperand_cases b
      · rw [if_neg (by simp [not_seven_lt_val])]
        exact exec_eq_specAlu rfl s r q
      · rw [if_pos hb]
        exact withRegs_of_gt_right r hb s _
    · rw [if_pos ha]
      exact withRegs_of_gt_left ha b s _

theorem specDispatch_of_lookup_eq_none {op : Byte} (hl : lookup opcodeMap op = none) (s : State) (a b : Byte) :
    specDispatch s op a b = s.stop (.unrecognizedOpcode op) := by
  have hop := lookup_eq_none_iff_not_mem.1 hl
  have hno {l : List Byte} (hsub : ∀ o ∈ l, o ∈ Mnemonic.all.map opcodeMap) : op ∉ l := fun h => hop (hsub op h)
  rw [specDispatch, if_neg (hno (by decide)), if_neg (hno (by decide)), if_neg (by rintro rfl; exact hop (by decide))]
  rfl

/-- Settles O8: fetch, lookup and handler one by one. -/
theorem stepIsTheSpecifiedStepFunction : Obligations.StepIsTheSpecifiedStepFunction := by
  intro s hs
  cases hf : fetch s with
  | error c => rw [step_of_fetch_error hs hf, specStep_of_fetch_error hf]
  | ok f =>
    obtain ⟨_, hop, hfirst, hsecond⟩ := fetch_ok hf
    rw [specStep_of_fetch_ok hf, ← hop]
    cases hl : lookup opcodeMap f.op with
    | none => rw [step_of_lookup_eq_none hs hf hl, specDispatch_of_lookup_eq_none hl]
    | some m =>
      rw [← lookup_some hl] at hfirst hsecond ⊢
      rw [operandCount_of_valid opcodeMap_valid] at hfirst hsecond
      rw [step_of_decode hs (decode_codeBytes.2 ⟨f, m, hf, hl, rfl⟩),
        makeInstr_congr (fun h => (hfirst h).2) (fun h => (hsecond h).2), exec_eq_specDispatch]

end Sys2Proof.Machine
end
